-- ==== Sys2Proof/Word.lean ====
section
/-! DEFINITION. The word types of the block: bytes of operand memory, 32-bit command words and registers,
16-bit immediates. -/

namespace Sys2Proof

/-- One byte of operand memory (R62). -/
abbrev Byte := BitVec 8

/-- A command word (R90), a register, or the bus data word (R63). -/
abbrev Word := BitVec 32

/-- The immediate field IMM16 (R93) and `KG_ROUNDS.ROUNDS` (R33). -/
abbrev Half := BitVec 16

end Sys2Proof
end

