-- ==== Sys2Proof/Syntax.lean ====
section
/-! DEFINITION. The commands of the block: one constructor per row of the opcode table (R95), and the assembler's
source lines (R101 to R103). -/

namespace Sys2Proof

/-- A 3-bit slot field: every value 0 to 7 names a slot (R94). -/
abbrev Slot := Fin 8

/-- The ten commands, operands in the order of R101 (destination first). -/
inductive Instr where
  | nop
  | modexp (rd ra rb rc : Slot)
  | cipher (rd ra rb rc : Slot)
  | mrtest (ra : Slot) (rounds : Half)
  | gcd (rd ra rb : Slot)
  | modinv (rd ra rb : Slot)
  | primegen (rd : Slot) (bits : Half)
  | derive (rd ra rb : Slot)
  | keygen (rd : Slot) (totalBits : Half)
  | bitlen (ra : Slot)
  deriving DecidableEq, Repr

/-- A source line of the assembler before its operands are checked (R101), with the two
pseudo-instructions `ENCRYPT` (R102) and `DECRYPT` (R103). -/
inductive AsmLine where
  | nop
  | modexp (d b x m : Nat)
  | cipher (d s n x : Nat)
  | mrtest (s rounds : Nat)
  | gcd (d a b : Nat)
  | modinv (d a m : Nat)
  | primegen (d bits : Nat)
  | derive (d p q : Nat)
  | keygen (d totalBits : Nat)
  | bitlen (s : Nat)
  | encrypt (d m k : Nat)
  | decrypt (d c k : Nat)
  deriving DecidableEq, Repr

end Sys2Proof
end

