-- ==== Sys2Proof/WellFormed.lean ====
section
/-! DEFINITION. Which commands have an encoding: the one check the field types do not make already is that the
key triple of `DERIVE` and `KEYGEN` fits the eight slots (R99). -/

namespace Sys2Proof

/-- RD, RD+1 and RD+2 all name a slot (R99). -/
def tripleFits (rd : Slot) : Bool := decide (rd.val ≤ 5)

/-- `DERIVE` and `KEYGEN` need RD at most 5 (R95, R99). -/
def Instr.wellFormed : Instr → Bool
  | .nop => true
  | .modexp _ _ _ _ => true
  | .cipher _ _ _ _ => true
  | .mrtest _ _ => true
  | .gcd _ _ _ => true
  | .modinv _ _ _ => true
  | .primegen _ _ => true
  | .derive rd _ _ => tripleFits rd
  | .keygen rd _ => tripleFits rd
  | .bitlen _ => true

end Sys2Proof
end

