-- ==== Sys2Proof/Decode.lean ====
section
/-! DEFINITION. The command word: its fields (R91, R92), the opcode map with match and mask (R95), the decoder
(R96 to R100), the encoder, and the assembler with its pseudo-instructions (R101 to R103). -/

namespace Sys2Proof

/-- OP = w[7:0] (R91, R92). -/
def opField (w : Word) : BitVec 8 := w.extractLsb' 0 8

/-- RD = w[10:8] (R91, R92). -/
def rdField (w : Word) : Slot := (w.extractLsb' 8 3).toFin

/-- RA = w[13:11] (R91, R92). -/
def raField (w : Word) : Slot := (w.extractLsb' 11 3).toFin

/-- RB = w[16:14] (R91). -/
def rbField (w : Word) : Slot := (w.extractLsb' 14 3).toFin

/-- RC = w[19:17] (R91). -/
def rcField (w : Word) : Slot := (w.extractLsb' 17 3).toFin

/-- IMM16 = w[31:16] (R92, R93). -/
def immField (w : Word) : Half := w.extractLsb' 16 16

/-- A row of the opcode map: `w` selects it when `w AND mask = pattern` (R95). -/
structure Row where
  pattern : Word
  mask : Word
  deriving DecidableEq, Repr

def Row.selects (r : Row) (w : Word) : Bool := w &&& r.mask == r.pattern

/-- The names of the opcode map's rows (R95). -/
inductive Mnemonic where
  | NOP | MODEXP | CIPHER | MRTEST | GCD | MODINV | PRIMEGEN | DERIVE | KEYGEN | BITLEN
  deriving DecidableEq, Repr

/-- Match and mask of every row, as R95 prints them. -/
def Mnemonic.row : Mnemonic → Row
  | .NOP => ⟨0x00000000, 0xFFFFFFFF⟩
  | .MODEXP => ⟨0x00000001, 0xFFF000FF⟩
  | .CIPHER => ⟨0x00000002, 0xFFF000FF⟩
  | .MRTEST => ⟨0x00000003, 0x0000C7FF⟩
  | .GCD => ⟨0x00000004, 0xFFFE00FF⟩
  | .MODINV => ⟨0x00000005, 0xFFFE00FF⟩
  | .PRIMEGEN => ⟨0x00000006, 0x0000F8FF⟩
  | .DERIVE => ⟨0x00000007, 0xFFFE00FF⟩
  | .KEYGEN => ⟨0x00000008, 0x0000F8FF⟩
  | .BITLEN => ⟨0x00000009, 0xFFFFC7FF⟩

/-- The rows in the map's order (R95). -/
def Mnemonic.all : List Mnemonic :=
  [.NOP, .MODEXP, .CIPHER, .MRTEST, .GCD, .MODINV, .PRIMEGEN, .DERIVE, .KEYGEN, .BITLEN]

/-- The row whose match is `w AND mask`, if there is one (R96). -/
def findRow (w : Word) : Option Mnemonic := Mnemonic.all.find? (fun m => m.row.selects w)

/-- Why a word does not decode. Each completes with `IllegalCommand` (R96). -/
inductive Illegal where
  /-- Opcode 0x0A to 0xFF (R97). -/
  | reservedOpcode
  /-- A defined opcode with a nonzero bit in a must-be-zero field (R98). -/
  | mustBeZero
  /-- `DERIVE` or `KEYGEN` with RD 6 or 7 (R99). -/
  | tripleOutOfRange
  deriving DecidableEq, Repr

/-- What the decoder reads from a word. -/
inductive Decoded where
  | command (i : Instr)
  | illegal (why : Illegal)
  deriving DecidableEq, Repr

/-- Decoding of the issued word, total on all words (R96). -/
def decode (w : Word) : Decoded :=
  match findRow w with
  | none => .illegal (if 10 ≤ (opField w).toNat then .reservedOpcode else .mustBeZero)
  | some .NOP => .command .nop
  | some .MODEXP => .command (.modexp (rdField w) (raField w) (rbField w) (rcField w))
  | some .CIPHER => .command (.cipher (rdField w) (raField w) (rbField w) (rcField w))
  | some .MRTEST => .command (.mrtest (raField w) (immField w))
  | some .GCD => .command (.gcd (rdField w) (raField w) (rbField w))
  | some .MODINV => .command (.modinv (rdField w) (raField w) (rbField w))
  | some .PRIMEGEN => .command (.primegen (rdField w) (immField w))
  | some .DERIVE =>
      if tripleFits (rdField w) then .command (.derive (rdField w) (raField w) (rbField w))
      else .illegal .tripleOutOfRange
  | some .KEYGEN =>
      if tripleFits (rdField w) then .command (.keygen (rdField w) (immField w))
      else .illegal .tripleOutOfRange
  | some .BITLEN => .command (.bitlen (raField w))

/-- The instruction the decoder reads from `nbits` bits `w` of the opcode table; the bits above `nbits` are zero.
A command is always one 32-bit word (R90). -/
def decodeTableWord (nbits w : Nat) : Option Instr :=
  match decode (BitVec.ofNat 32 (w % 2 ^ nbits)) with
  | .command i => some i
  | .illegal _ => none

/-- A field placed with its lowest bit at bit `k` of the word. -/
def placeField {n : Nat} (x : BitVec n) (k : Nat) : Word := x.zeroExtend 32 <<< k

/-- A slot number as its 3-bit field (R94). -/
def slotBits (i : Slot) : BitVec 3 := BitVec.ofFin i

/-- Format R: OP, RD, RA, RB, RC at bits 0, 8, 11, 14, 17, and Z12 zero (R91). -/
def formatR (op : BitVec 8) (rd ra rb rc : Slot) : Word :=
  placeField op 0 ||| placeField (slotBits rd) 8 ||| placeField (slotBits ra) 11 |||
    placeField (slotBits rb) 14 ||| placeField (slotBits rc) 17

/-- Format I: OP, RD, RA, IMM16 at bits 0, 8, 11, 16, and Z2 zero (R92). -/
def formatI (op : BitVec 8) (rd ra : Slot) (imm : Half) : Word :=
  placeField op 0 ||| placeField (slotBits rd) 8 ||| placeField (slotBits ra) 11 ||| placeField imm 16

/-- The word of a command: every field it does not use is zero (R95, R101). -/
def encode : Instr → Word
  | .nop => formatR 0x00 0 0 0 0
  | .modexp rd ra rb rc => formatR 0x01 rd ra rb rc
  | .cipher rd ra rb rc => formatR 0x02 rd ra rb rc
  | .mrtest ra rounds => formatI 0x03 0 ra rounds
  | .gcd rd ra rb => formatR 0x04 rd ra rb 0
  | .modinv rd ra rb => formatR 0x05 rd ra rb 0
  | .primegen rd bits => formatI 0x06 rd 0 bits
  | .derive rd ra rb => formatR 0x07 rd ra rb 0
  | .keygen rd totalBits => formatI 0x08 rd 0 totalBits
  | .bitlen ra => formatR 0x09 0 ra 0 0

/-- The row of the opcode map that a command belongs to (R95). -/
def Instr.mnemonic : Instr → Mnemonic
  | .nop => .NOP
  | .modexp _ _ _ _ => .MODEXP
  | .cipher _ _ _ _ => .CIPHER
  | .mrtest _ _ => .MRTEST
  | .gcd _ _ _ => .GCD
  | .modinv _ _ _ => .MODINV
  | .primegen _ _ => .PRIMEGEN
  | .derive _ _ _ => .DERIVE
  | .keygen _ _ => .KEYGEN
  | .bitlen _ => .BITLEN

/-- The assembler takes slots b0 to b7 only (R101). -/
def asmSlot (n : Nat) : Option Slot := if h : n < 8 then some ⟨n, h⟩ else none

/-- The assembler takes immediates 0 to 65535 only (R101). -/
def asmImm (n : Nat) : Option Half := if n ≤ 65535 then some (BitVec.ofNat 16 n) else none

/-- The assembler's refusal of an ill-formed command: RD above 5 in `DERIVE` and `KEYGEN` (R101). -/
def asmChecked (i : Instr) : Option Instr := if i.wellFormed then some i else none

/-- `CIPHER bd, bs, bk, b(k+j)` for a key triple that starts at slot k, k at most 5 (R102 with j = 1,
R103 with j = 2). -/
def asmWithKey (d s k j : Nat) : Option Instr :=
  if k ≤ 5 then do
    return .cipher (← asmSlot d) (← asmSlot s) (← asmSlot k) (← asmSlot (k + j))
  else none

/-- The assembler (R101 to R103): none where it refuses the line. -/
def assemble : AsmLine → Option Instr
  | .nop => some .nop
  | .modexp d b x m => do return .modexp (← asmSlot d) (← asmSlot b) (← asmSlot x) (← asmSlot m)
  | .cipher d s n x => do return .cipher (← asmSlot d) (← asmSlot s) (← asmSlot n) (← asmSlot x)
  | .mrtest s rounds => do return .mrtest (← asmSlot s) (← asmImm rounds)
  | .gcd d a b => do return .gcd (← asmSlot d) (← asmSlot a) (← asmSlot b)
  | .modinv d a m => do return .modinv (← asmSlot d) (← asmSlot a) (← asmSlot m)
  | .primegen d bits => do return .primegen (← asmSlot d) (← asmImm bits)
  | .derive d p q => do asmChecked (.derive (← asmSlot d) (← asmSlot p) (← asmSlot q))
  | .keygen d totalBits => do asmChecked (.keygen (← asmSlot d) (← asmImm totalBits))
  | .bitlen s => do return .bitlen (← asmSlot s)
  | .encrypt d m k => asmWithKey d m k 1
  | .decrypt d c k => asmWithKey d c k 2

end Sys2Proof
end

