-- ==== Sys2Proof/Config.lean ====
section
/-! DEFINITION. What is fixed for the machine: the parameters of 00_scope.md section 4, and the two things the
spec leaves open, which have no value here (`baseIndex` and `entropyWord`). -/

namespace Sys2Proof.Config

/-- `MAXBITS`, bits per operand slot (R3, R21). -/
def maxBits : Nat := 4096

/-- `SLOT_BYTES` (00_scope.md section 4, R21). -/
def slotBytes : Nat := 512

/-- Offset of slot 0 in the window (R21, R61). -/
def slotsOffset : Nat := 0x1000

/-- Size of the window in bytes (R60). -/
def windowBytes : Nat := 0x2000

/-- `E_PUB`, the only public exponent (R8). -/
def ePub : Nat := 65537

/-- `KEY_SIZES`, the legal sizes of `KEYGEN` (00_scope.md section 4, R180). -/
def keySizes : List Nat := [512, 1024, 2048, 4096]

/-- `PRIME_SIZES`, the legal sizes of `PRIMEGEN` (00_scope.md section 4, R136). -/
def primeSizes : List Nat := [256, 512, 1024, 2048]

/-- The constant `ID` register (R27). -/
def idValue : Word := 0x4D454531

/-- The constant `CONFIG` register: NSLOTS = 8, MAXBITS = 0x1000 (R28). -/
def configValue : Word := 0x00100008

/-- Reset value of `KG_ROUNDS.ROUNDS` (R33, R280). -/
def kgRoundsReset : Half := 40

/-- Reset value of `SEARCH_CAP.CAP` (R34, R280). -/
def searchCapReset : Word := 0x00100000

/-- Which multiple of the window size `BASE` is: an open parameter of the platform (R60), so it has no value here
(log 4, safe). -/
opaque baseIndex : Nat

/-- `BASE`, a multiple of 0x2000 (R60). -/
def base : Nat := windowBytes * baseIndex

/-- The entropy source's answers to the draws that `Entropy.tape` does not give, by the number of the draw:
free values (R9, R10), so nothing in Lean can evaluate one (log 3, safe). -/
opaque entropyWord : Nat → Nat

end Sys2Proof.Config
end

