-- ==== Sys2Proof/Machine/State.lean ====
section
/-! DEFINITION. The state of the block (10_state.md R21 to R40), its reset value (R280), and the reasons a step
could stop. The last six fields of `State` are not registers: a pin, the bus response, and the inputs of the
agents outside the block. -/

namespace Sys2Proof.Machine

/-- Operand memory: (window offset, byte) pairs, offsets strictly rising, no zero byte. An unlisted offset reads 0,
the reset value of every slot byte (R40, R280). Slot i is the 512 bytes from 0x1000 + 0x200 i (R21), so the
slots have no other home (log 11). -/
abbrev Memory := List Host.Cell

/-- What a command reads: the eight slots, ROUNDS and CAP as they stood at issue (R23, R24). -/
structure Snapshot where
  mem : Memory
  rounds : Half
  cap : Word
  deriving DecidableEq, Repr

/-- An uncapped prime search that has not returned yet (R134): the candidate to test next and how many were tested;
`first` is the prime p and its count once the search for q has begun in `KEYGEN` (log 8). -/
structure Search where
  first : Option (Nat × Nat)
  candidate : Nat
  count : Nat
  deriving DecidableEq, Repr

/-- The engine's phase (R23). `STATUS.BUSY` is 1 exactly in `busy`. -/
inductive Phase where
  | idle
  | busy (w : Word) (snap : Snapshot) (search : Option Search)
  deriving DecidableEq, Repr

/-- The error kinds of R242. -/
inductive ErrKind where
  | illegalCommand
  | invalidKeySize
  | noInverseExists
  | messageTooLarge
  | primeSearchExhausted
  | zeroModulus
  | operandRange
  deriving DecidableEq, Repr

/-- What the block answers to one host access. -/
inductive Response where
  /-- A read's data, a narrow read in the low bits (R62, R66, R68). -/
  | readData (v : Word)
  /-- A write that got no bus error, taken or dropped (R67, R69). -/
  | writeDone
  /-- The outcome `BusError`, with the data a read returns (R64). -/
  | busError (v : Word)
  /-- The address is outside the window: the access is not the block's (R65). -/
  | notMine
  deriving DecidableEq, Repr

/-- What an agent does next (R2): a host access at a bus address, the engine's turn (with the `burst` of log 8), or a
level of the `RST` input (R280). -/
inductive Event where
  | read (addr size : Nat)
  | write (addr size : Nat) (v : Word)
  | engine (burst : Nat)
  | rst (level : Bool)
  deriving DecidableEq, Repr

/-- The entropy source as the engine sees it (R9, R10): the answers already fixed, oldest first, then
`Config.entropyWord` of the number of the draw (log 3). -/
structure Entropy where
  tape : List Nat
  drawn : Nat
  deriving DecidableEq, Repr

/-- Everything the block holds (R38) and the inputs of the agents outside it. -/
structure State where
  /-- B[0] to B[7] as bytes (R21). -/
  mem : Memory
  /-- `CTRL.IRQ_EN` (R29). -/
  irqEn : Bool
  /-- `STATUS.DONE` (R30). -/
  done : Bool
  /-- `STATUS.ERR` (R30). -/
  err : Bool
  /-- `STATUS.OVR` (R30). -/
  ovr : Bool
  /-- `STATUS.ERRCODE` (R30, R242). -/
  errcode : Byte
  /-- `CMD_LAST`, what a read of `CMD` returns (R31). -/
  cmdLast : Word
  /-- `RESULT` (R32). -/
  result : Word
  /-- `KG_ROUNDS.ROUNDS` (R33). -/
  kgRounds : Half
  /-- `SEARCH_CAP.CAP` (R34). -/
  searchCap : Word
  /-- `CANDIDATES` (R35). -/
  candidates : Word
  /-- The engine's phase with the running word and its snapshot (R23, R38); `STATUS.BUSY` is this. -/
  phase : Phase
  /-- The level of the `RST` input (R280). -/
  rst : Bool
  /-- The response to the last host access (R64, R66, R68). -/
  resp : Option Response
  /-- The entropy source (R9, R10). -/
  entropy : Entropy
  /-- An uncapped search tests at most `burst + 1` candidates in one engine turn (log 8). -/
  burst : Nat
  /-- What host, engine and platform do next, first to come first (R71, R294; log 1). -/
  agenda : List Event
  deriving DecidableEq, Repr

/-- The block right after reset (R40, R280): nothing is pending and no input has come (log 12). -/
def State.reset : State where
  mem := []
  irqEn := false
  done := false
  err := false
  ovr := false
  errcode := 0
  cmdLast := 0
  result := 0
  kgRounds := Config.kgRoundsReset
  searchCap := Config.searchCapReset
  candidates := 0
  phase := .idle
  rst := false
  resp := none
  entropy := { tape := [], drawn := 0 }
  burst := 0
  agenda := []

/-- Reasons a step stops with a fault: none. Every error of the block is a completion that its state reports (R240 to
R242), and a bus error is the response to one access (R64). -/
inductive Fault where
  deriving DecidableEq, Repr

/-- Reasons a step is refused. -/
inductive Refusal where
  /-- Raised by an arm of `exec` whose command has no meaning in the model yet; no arm is left so. Safe: the machine
  stops where the hardware would go on. -/
  | notModelled (mnemonic : String)
  deriving DecidableEq, Repr

end Sys2Proof.Machine
end

