-- ==== Sys2Proof/Machine/Ops.lean ====
section
/-! DEFINITION. The named operations over operand memory, slots and the block's state: reading and writing bytes
and slots (R62, R66, R67), issue (R23), the two ways a command completes (R240, R241) and reset (R280). -/

namespace Sys2Proof.Machine

/-! ## Operand memory -/

/-- The byte at a window offset; an unlisted one is 0 (R40). -/
def Memory.readByte (m : Memory) (a : Nat) : Byte := (m.lookup a).getD 0

/-- The little-endian value of the `n` bytes from offset `a` (R62). -/
def Memory.readLE (m : Memory) (a : Nat) : Nat → Nat
  | 0 => 0
  | n + 1 => (m.readByte a).toNat + 256 * Memory.readLE m (a + 1) n

/-- The cells of the `n` low bytes of `v`, least significant first from offset `a`; zero bytes are not listed
(R62). -/
def cellsOf (a : Nat) : Nat → Nat → Memory
  | 0, _ => []
  | n + 1, v =>
      if v % 256 = 0 then cellsOf (a + 1) n (v / 256)
      else (a, BitVec.ofNat 8 v) :: cellsOf (a + 1) n (v / 256)

/-- Writes the `n` low bytes of `v` from offset `a`, little-endian (R62). -/
def Memory.write (m : Memory) (a n v : Nat) : Memory :=
  m.filter (fun c => decide (c.1 < a)) ++ cellsOf a n v ++ m.filter (fun c => decide (a + n ≤ c.1))

/-- The canonical form: offsets strictly rising, inside operand memory, no entry equal to the 0 an unlisted offset
reads as. -/
def Memory.wf (m : Memory) : Bool :=
  decide (m.Pairwise (fun c d => c.1 < d.1)) &&
    m.all (fun c => decide (c.2 ≠ 0) && decide (Config.slotsOffset ≤ c.1) && decide (c.1 < Config.windowBytes))

/-- The window offset of slot i (R21, R61). -/
def slotBase (i : Slot) : Nat := Config.slotsOffset + Config.slotBytes * i.val

/-- `B[i]`, the 4096-bit value of slot i (R21, R62). -/
def Memory.slot (m : Memory) (i : Slot) : Nat := m.readLE (slotBase i) Config.slotBytes

/-- `B[i] <- v` (R21, R62). -/
def Memory.writeSlot (m : Memory) (i : Slot) (v : Nat) : Memory := m.write (slotBase i) Config.slotBytes v

/-- Slot writes in the order listed, as one commit (R24, R25). -/
def Memory.commit (m : Memory) (ws : List (Slot × Nat)) : Memory :=
  ws.foldl (fun m w => m.writeSlot w.1 w.2) m

/-- The slot `k` after `rd` in a key triple (R170); the numbers stay below 8 because RD is at most 5 (R99). -/
def slotAfter (rd : Slot) (k : Nat) : Slot := Fin.ofNat 8 (rd.val + k)

/-- The writes of a key triple: n, e, d from RD on (R170). -/
def tripleWrites (rd : Slot) (n e d : Nat) : List (Slot × Nat) :=
  [(rd, n), (slotAfter rd 1, e), (slotAfter rd 2, d)]

/-! ## Phase, status and issue -/

/-- `STATUS.BUSY` (R23). -/
def Phase.isBusy : Phase → Bool
  | .idle => false
  | .busy _ _ _ => true

/-- `STATUS.BUSY` (R23). -/
def State.busy (s : State) : Bool := s.phase.isBusy

/-- What issue captures: the slots, ROUNDS and CAP as they stand (R23, R24). -/
def State.takeSnapshot (s : State) : Snapshot := { mem := s.mem, rounds := s.kgRounds, cap := s.searchCap }

/-- Issue of the word `w` while idle (R23). -/
def State.issue (s : State) (w : Word) : State :=
  { s with cmdLast := w, done := false, err := false, errcode := 0, phase := .busy w s.takeSnapshot none }

/-- A dropped host write leaves its mark (R23, R67). -/
def State.setOvr (s : State) : State := { s with ovr := true }

/-! ## Completion: the block's way of taking an exception, and the way back -/

/-- The numeric code of an error kind (R242). -/
def ErrKind.code : ErrKind → Byte
  | .illegalCommand => 0x01
  | .invalidKeySize => 0x02
  | .noInverseExists => 0x03
  | .messageTooLarge => 0x04
  | .primeSearchExhausted => 0x05
  | .zeroModulus => 0x06
  | .operandRange => 0x07

/-- Completion without an error: commits the slot writes in one step, writes RESULT and CANDIDATES where the command
does, and reports DONE (R240). -/
def State.completeOk (s : State) (ws : List (Slot × Nat)) (result cand : Option Word) : State :=
  { s with
    mem := s.mem.commit ws
    result := result.getD s.result
    candidates := cand.getD s.candidates
    err := false
    errcode := 0
    done := true
    phase := .idle }

/-- Completion with an error: nothing but CANDIDATES (where the command says so) and STATUS is written (R240,
R241). -/
def State.raise (s : State) (k : ErrKind) (cand : Option Word) : State :=
  { s with
    candidates := cand.getD s.candidates
    err := true
    errcode := k.code
    done := true
    phase := .idle }

/-- The host's acknowledgement, a write of the write-1-to-clear bits of STATUS (R30, R252): the block's way back from a
completion. -/
def State.writeStatus (s : State) (v : Word) : State :=
  { s with
    done := s.done && !v.getLsbD 1
    err := s.err && !v.getLsbD 2
    errcode := if v.getLsbD 2 then 0 else s.errcode
    ovr := s.ovr && !v.getLsbD 3 }

/-- The engine's turn ends with an uncapped search still running (R134): the command stays in the busy phase. -/
def State.suspend (s : State) (q : Search) : State :=
  { s with phase := match s.phase with
      | .idle => .idle
      | .busy w snap _ => .busy w snap (some q) }

/-- The draws a command made are consumed (R241). -/
def State.withEntropy (s : State) (e : Entropy) : State := { s with entropy := e }

/-! ## Reset -/

/-- The state change of R280, which soft reset shares (R281): every slot, register and the phase at reset. The pin, the
bus response and the inputs of the agents outside the block are not the block's state and stay (log 12). -/
def State.resetBlock (s : State) : State :=
  { State.reset with
    rst := s.rst, resp := s.resp, entropy := s.entropy, burst := s.burst, agenda := s.agenda }

end Sys2Proof.Machine
end

