-- ==== Sys2Proof/Machine/Flags.lean ====
section
/-! DEFINITION. The status bits. The block has no condition codes (R39): its flags are the fields of STATUS (R30) and
the interrupt line computed from them (R37). -/

namespace Sys2Proof.Machine

/-- One bit as a register word with that bit set. -/
def flagBit (b : Bool) (k : Nat) : Word := if b then 1#32 <<< k else 0

/-- What a read of STATUS returns (R30): BUSY, DONE, ERR, OVR in bits 0 to 3, ERRCODE in bits 15 to 8, every other bit
0. -/
def State.statusWord (s : State) : Word :=
  flagBit s.busy 0 ||| flagBit s.done 1 ||| flagBit s.err 2 ||| flagBit s.ovr 3 |||
    (s.errcode.zeroExtend 32 <<< 8)

/-- The interrupt output, `CTRL.IRQ_EN AND STATUS.DONE` at every instant (R37, R250). -/
def State.irq (s : State) : Bool := s.irqEn && s.done

/-- `CANDIDATES` saturates at 0xFFFF_FFFF (R35, R132, R181). -/
def saturate (count : Nat) : Word := BitVec.ofNat 32 (min count 0xFFFFFFFF)

/-- The RESULT of a yes-or-no command: 1 or 0 (R32, R125). -/
def boolResult (b : Bool) : Word := if b then 1 else 0

end Sys2Proof.Machine
end

