-- ==== Sys2Proof/Machine/Operands.lean ====
section
/-! DEFINITION. The operands of a command: slots, ROUNDS and CAP from the snapshot (R24), and the immediate
(R93). -/

namespace Sys2Proof.Machine

/-- The snapshot the running command reads (R24). With no command running it is what issue would capture: no step
runs a command then (log 9). -/
def State.snapshot (s : State) : Snapshot :=
  match s.phase with
  | .idle => s.takeSnapshot
  | .busy _ snap _ => snap

/-- The uncapped search left running by an earlier engine turn of this command (log 8). -/
def State.search (s : State) : Option Search :=
  match s.phase with
  | .idle => none
  | .busy _ _ q => q

/-- `SNAP.B[i]` (R24). -/
def State.src (s : State) (i : Slot) : Nat := s.snapshot.mem.slot i

/-- `SNAP.ROUNDS` (R24, R33). -/
def State.roundsOperand (s : State) : Nat := s.snapshot.rounds.toNat

/-- `SNAP.CAP` (R24, R34). -/
def State.capOperand (s : State) : Nat := s.snapshot.cap.toNat

/-- The immediate as an unsigned integer (R93). -/
def immOperand (imm : Half) : Nat := imm.toNat

end Sys2Proof.Machine
end

