-- ==== Sys2Proof/Machine/Bus.lean ====
section
/-! DEFINITION. The host's side of the block: which accesses get a bus error (R64), the nine registers as the host
reads and writes them (R27 to R36, R68, R69), operand memory (R66, R67), the window at BASE (R60, R65), the `RST`
input (R280), and the notation of host programs (R104). -/

namespace Sys2Proof.Machine

/-- The nine registers (10_state.md section 4). -/
inductive Reg where
  | id | config | ctrl | status | cmd | result | kgRounds | searchCap | candidates
  deriving DecidableEq, Repr

/-- Offset of a register (10_state.md section 4, R61). -/
def Reg.offset : Reg → Nat
  | .id => 0x000
  | .config => 0x004
  | .ctrl => 0x008
  | .status => 0x00C
  | .cmd => 0x010
  | .result => 0x014
  | .kgRounds => 0x018
  | .searchCap => 0x01C
  | .candidates => 0x020

/-- The registers in offset order. -/
def Reg.all : List Reg := [.id, .config, .ctrl, .status, .cmd, .result, .kgRounds, .searchCap, .candidates]

/-- The register at an offset. -/
def regAt (off : Nat) : Option Reg := Reg.all.find? (fun r => r.offset == off)

/-- The accesses that get a bus error (R64). BASE is a multiple of 0x2000, so an address is a multiple of 1, 2 or 4
exactly when its offset is. -/
def isBusError (off size : Nat) : Bool :=
  !(size == 1 || size == 2 || size == 4) || off % size != 0
    || (size != 4 && decide (off < 0x1000))
    || (decide (0x24 ≤ off) && decide (off ≤ 0xFFF))

/-- What a read of a register returns, reserved bits 0 (R27 to R36, R68). -/
def State.readReg (s : State) : Reg → Word
  | .id => Config.idValue
  | .config => Config.configValue
  | .ctrl => flagBit s.irqEn 0
  | .status => s.statusWord
  | .cmd => s.cmdLast
  | .result => s.result
  | .kgRounds => s.kgRounds.zeroExtend 32
  | .searchCap => s.searchCap
  | .candidates => s.candidates

/-- A write of CTRL: SRST performs the soft reset and the rest of the value is ignored, else IRQ_EN is stored (R29,
R281). -/
def State.writeCtrl (s : State) (v : Word) : State :=
  if v.getLsbD 1 then s.resetBlock else { s with irqEn := v.getLsbD 0 }

/-- A write of CMD: issue while idle, dropped with OVR while busy (R23). -/
def State.writeCmd (s : State) (v : Word) : State :=
  if s.busy then s.setOvr else s.issue v

/-- A write of a register (R69); the read-only ones ignore it (R36). -/
def State.writeReg (s : State) (v : Word) : Reg → State
  | .id => s
  | .config => s
  | .ctrl => s.writeCtrl v
  | .status => s.writeStatus v
  | .cmd => s.writeCmd v
  | .result => s
  | .kgRounds => { s with kgRounds := v.extractLsb' 0 16 }
  | .searchCap => { s with searchCap := v }
  | .candidates => s

/-- A read at a window offset that gets no bus error: a register or `size` bytes of operand memory (R66, R68), in the low
bits of the data word (log 7). -/
def State.readData (s : State) (off size : Nat) : Word :=
  match regAt off with
  | some r => s.readReg r
  | none => BitVec.ofNat 32 (s.mem.readLE off size)

/-- A write of operand memory: dropped with OVR while busy (R67). -/
def State.writeMem (s : State) (off size : Nat) (v : Word) : State :=
  if s.busy then s.setOvr else { s with mem := s.mem.write off size v.toNat }

/-- A write at a window offset that gets no bus error (R67, R69). -/
def State.writeData (s : State) (off size : Nat) (v : Word) : State :=
  match regAt off with
  | some r => s.writeReg v r
  | none => s.writeMem off size v

/-- The block answers a host access. -/
def State.respond (s : State) (r : Response) : State := { s with resp := some r }

/-- A read at a window offset: a bus error with data 0 (R64; also while RST is asserted, log 6), 0 while RST is asserted
(R280), else the data. No read has a side effect (R66, R68). -/
def State.readOffset (s : State) (off size : Nat) : State :=
  if isBusError off size then s.respond (.busError 0)
  else if s.rst then s.respond (.readData 0)
  else s.respond (.readData (s.readData off size))

/-- A write at a window offset: a bus error changes nothing (R64), neither does a write while RST is asserted (R280). -/
def State.writeOffset (s : State) (off size : Nat) (v : Word) : State :=
  if isBusError off size then s.respond (.busError 0)
  else if s.rst then s.respond .writeDone
  else (s.writeData off size v).respond .writeDone

/-- The block's window (R60). -/
def inWindow (addr : Nat) : Bool :=
  decide (Config.base ≤ addr) && decide (addr < Config.base + Config.windowBytes)

/-- A host read at a bus address; outside the window it is not the block's (R65, log 5). -/
def State.hostRead (s : State) (addr size : Nat) : State :=
  if inWindow addr then s.readOffset (addr - Config.base) size else s.respond .notMine

/-- A host write at a bus address; outside the window it is not the block's (R65, log 5). -/
def State.hostWrite (s : State) (addr size : Nat) (v : Word) : State :=
  if inWindow addr then s.writeOffset (addr - Config.base) size v else s.respond .notMine

/-- The `RST` input takes a level: while asserted and at its release the block is in its reset state (R280;
log 16). -/
def State.driveRst (s : State) (level : Bool) : State :=
  if level || s.rst then { s.resetBlock with rst := level } else s

/-! ## Host program notation (R104) -/

/-- `wreg NAME, v`. -/
def wregEvent (r : Reg) (v : Word) : Event := .write (Config.base + r.offset) 4 v

/-- `rreg NAME`. -/
def rregEvent (r : Reg) : Event := .read (Config.base + r.offset) 4

/-- `issue 0x…`: a raw word, legal or not. -/
def issueEvent (w : Word) : Event := wregEvent .cmd w

/-- `write bi, V`: 128 aligned 32-bit writes, word k carrying V[32k+31:32k]. -/
def writeSlotEvents (i : Slot) (v : Nat) : List Event :=
  (List.range 128).map (fun k => .write (Config.base + (slotBase i + 4 * k)) 4 (BitVec.ofNat 32 (v / 2 ^ (32 * k))))

/-- `read bi`: the slot back in the same order. -/
def readSlotEvents (i : Slot) : List Event :=
  (List.range 128).map (fun k => .read (Config.base + (slotBase i + 4 * k)) 4)

/-- `wait`: reads of STATUS, the completion step among them, the read that finds it, and the write that clears DONE
only. `polls` is how many reads come before the completion step. -/
def waitEvents (polls burst : Nat) : List Event :=
  List.replicate polls (rregEvent .status) ++ [.engine burst, rregEvent .status, wregEvent .status 2]

end Sys2Proof.Machine
end

