-- ==== Sys2Proof/Machine/Arith.lean ====
section
/-! DEFINITION. The arithmetic primitives of 00_scope.md section 6 (R4 to R7), exact on natural numbers (R3). -/

namespace Sys2Proof.Machine

/-- `bitlen(v)` (00_scope.md section 5, R7). -/
def bitlen (v : Nat) : Nat := if v = 0 then 0 else Nat.log2 v + 1

/-- The loop of R4's reference algorithm, from the low bit of the exponent up; the fuel is the exponent's bit
length. -/
def modExpLoop (m : Nat) : Nat → Nat → Nat → Nat → Nat
  | 0, r, _, _ => r
  | k + 1, r, t, x =>
      if x = 0 then r
      else modExpLoop m k (if x % 2 = 1 then r * t % m else r) (t * t % m) (x / 2)

/-- `ModExpFn(b, x, m)`, m at least 1, by square-and-multiply (R4). -/
def modExpFn (b x m : Nat) : Nat := modExpLoop m (bitlen x) (1 % m) (b % m) x

/-- `GcdFn(a, b)` (R5). -/
def gcdFn (a b : Nat) : Nat := Nat.gcd a b

/-- The extended Euclidean loop on (r0, t0) and (r1, t1), where each t times a is congruent to its r modulo m. -/
def invLoop (m : Nat) : Nat → Nat → Nat → Nat → Nat → Nat
  | 0, _, t0, _, _ => t0
  | k + 1, r0, t0, r1, t1 =>
      if r1 = 0 then t0
      else invLoop m k r1 t1 (r0 % r1) ((t0 + (m - r0 / r1 * t1 % m)) % m)

/-- `InvFn(a, m)`, m at least 1 and gcd(a mod m, m) = 1: the representative in [0, m) (R6, R157). -/
def invFn (a m : Nat) : Nat :=
  invLoop m (bitlen m + bitlen (a % m) + 1) m 0 (a % m) (1 % m)

end Sys2Proof.Machine
end

