-- ==== Sys2Proof/Machine/Cipher.lean ====
section
/-! DEFINITION. The modular exponentiation and cipher family: MODEXP (R220 to R222) and CIPHER (R225 to R227). -/

namespace Sys2Proof.Machine

/-- `MODEXP bd, bb, bx, bm` (R220), with no bound on the base (R222). -/
def execModexp (rd ra rb rc : Slot) (s : State) : Host.Outcome State Fault Refusal :=
  let b := s.src ra
  let x := s.src rb
  let m := s.src rc
  if m = 0 then .next (s.raise .zeroModulus none)
  else .next (s.completeOk [(rd, modExpFn b x m)] none none)

/-- `CIPHER bd, bs, bn, bx` (R225): ZeroModulus before MessageTooLarge (R226, R245). -/
def execCipher (rd ra rb rc : Slot) (s : State) : Host.Outcome State Fault Refusal :=
  let t := s.src ra
  let n := s.src rb
  let x := s.src rc
  if n = 0 then .next (s.raise .zeroModulus none)
  else if n ≤ t then .next (s.raise .messageTooLarge none)
  else .next (s.completeOk [(rd, modExpFn t x n)] none none)

end Sys2Proof.Machine
end

