-- ==== Sys2Proof/Machine/Codec.lean ====
section
/-! DEFINITION. The message codec and control family: the codec's layout (R200, R201), BITLEN (R202) and NOP
(R206). -/

namespace Sys2Proof.Machine

/-- The integer a byte sequence encodes, byte i in bits 8i to 8i+7 (R200). -/
def packBytes : List Byte → Nat
  | [] => 0
  | t :: ts => t.toNat + 256 * packBytes ts

/-- Encoding of a message; a host refuses one longer than a slot (R200). -/
def encodeMessage (msg : List Byte) : Option Nat :=
  if msg.length ≤ Config.slotBytes then some (packBytes msg) else none

/-- The `k` low bytes of `v`, least significant first. -/
def unpackBytes : Nat → Nat → List Byte
  | 0, _ => []
  | k + 1, v => BitVec.ofNat 8 v :: unpackBytes k (v / 256)

/-- The number of bytes an integer decodes to (R201, R202). -/
def messageLength (v : Nat) : Nat := (bitlen v + 7) / 8

/-- Decoding of an integer to its message (R201). -/
def decodeMessage (v : Nat) : List Byte := unpackBytes (messageLength v) v

/-- `BITLEN bs` (R202). -/
def execBitlen (ra : Slot) (s : State) : Host.Outcome State Fault Refusal :=
  .next (s.completeOk [] (some (BitVec.ofNat 32 (bitlen (s.src ra)))) none)

/-- `NOP` (R206). -/
def execNop (s : State) : Host.Outcome State Fault Refusal := .next (s.completeOk [] none none)

end Sys2Proof.Machine
end

