-- ==== Sys2Proof/Machine/InverseGcd.lean ====
section
/-! DEFINITION. The modular inverse and GCD family: GCD (R150, R151) and MODINV (R155 to R157). -/

namespace Sys2Proof.Machine

/-- `GCD bd, ba, bb` (R150). -/
def execGcd (rd ra rb : Slot) (s : State) : Host.Outcome State Fault Refusal :=
  .next (s.completeOk [(rd, gcdFn (s.src ra) (s.src rb))] none none)

/-- `MODINV bd, ba, bm` (R155): ZeroModulus before NoInverseExists (R156, R245). -/
def execModinv (rd ra rb : Slot) (s : State) : Host.Outcome State Fault Refusal :=
  let a := s.src ra
  let m := s.src rb
  if m = 0 then .next (s.raise .zeroModulus none)
  else if gcdFn (a % m) m ≠ 1 then .next (s.raise .noInverseExists none)
  else .next (s.completeOk [(rd, invFn a m)] none none)

end Sys2Proof.Machine
end

