-- ==== Sys2Proof/Machine/Entropy.lean ====
section
/-! DEFINITION. The two draws of R9 and R10. A raw answer of the source that is not in the range of the draw is taken
into it, so that every value of the range, and no other, can come (log 3). -/

namespace Sys2Proof.Machine

/-- The source's next answer: the head of the tape, then the free values of `Config.entropyWord`. -/
def Entropy.next (e : Entropy) : Nat × Entropy :=
  match e.tape with
  | r :: rest => (r, { tape := rest, drawn := e.drawn + 1 })
  | [] => (Config.entropyWord e.drawn, { tape := [], drawn := e.drawn + 1 })

/-- `DrawBits(k)`: some r with r < 2^k (R9). -/
def Entropy.drawBits (e : Entropy) (k : Nat) : Nat × Entropy := (e.next.1 % 2 ^ k, e.next.2)

/-- A raw answer as a value in [lo, hi]; one that is in the range is that value. -/
def intoRange (lo hi raw : Nat) : Nat :=
  if lo ≤ raw ∧ raw ≤ hi then raw else lo + raw % (hi - lo + 1)

/-- `DrawWitness(lo, hi)`, lo at most hi: some a with lo ≤ a ≤ hi (R10). -/
def Entropy.drawWitness (e : Entropy) (lo hi : Nat) : Nat × Entropy := (intoRange lo hi e.next.1, e.next.2)

end Sys2Proof.Machine
end

