-- ==== Sys2Proof/Machine/Primality.lean ====
section
/-! DEFINITION. The primality family: Miller-Rabin (R120 to R124), the prime search (R130 to R135), and the commands
MRTEST (R125) and PRIMEGEN (R136). -/

namespace Sys2Proof.Machine

/-! ## Miller-Rabin -/

/-- Halves `d` while it is even, counting in `s` (R122); the fuel is at least the number of halvings. -/
def splitTwos : Nat → Nat → Nat → Nat × Nat
  | 0, d, s => (d, s)
  | k + 1, d, s => if d % 2 = 0 then splitTwos k (d / 2) (s + 1) else (d, s)

/-- `n - 1 = 2^s d` with d odd, as the pair (d, s) (R122). -/
def oddPart (n : Nat) : Nat × Nat := splitTwos (bitlen n) (n - 1) 0

/-- The inner loop of at most `k` squarings (R120, R123): true when it meets n - 1, false when it meets 1 first or ends
without. -/
def squarings (n : Nat) : Nat → Nat → Bool
  | 0, _ => false
  | k + 1, x =>
      if x * x % n = n - 1 then true
      else if x * x % n = 1 then false
      else squarings n k (x * x % n)

/-- One round with the witness `a` (R120); `max(s - 1, 0)` squarings (R123). -/
def roundPasses (n d s a : Nat) : Bool :=
  let x := modExpFn a d n
  x == 1 || x == n - 1 || squarings n (s - 1) x

/-- The rounds, each with one witness draw, up to the first that fails (R124). -/
def millerRabinRounds (n d s : Nat) : Nat → Entropy → Bool × Entropy
  | 0, e => (true, e)
  | r + 1, e =>
      let draw := e.drawWitness 2 (n - 2)
      if roundPasses n d s draw.1 then millerRabinRounds n d s r draw.2 else (false, draw.2)

/-- `MillerRabin(n, rounds)` (R120); 0, 1, 2, 3 and 4 are settled before any draw (R121). -/
def millerRabin (n rounds : Nat) (e : Entropy) : Bool × Entropy :=
  if n ≤ 1 ∨ n = 4 then (false, e)
  else if n ≤ 3 then (true, e)
  else millerRabinRounds n (oddPart n).1 (oddPart n).2 rounds e

/-- `MRTEST bs, rounds` (R125). -/
def execMrtest (ra : Slot) (rounds : Half) (s : State) : Host.Outcome State Fault Refusal :=
  let r := millerRabin (s.src ra) (immOperand rounds) s.entropy
  .next ((s.withEntropy r.2).completeOk [] (some (boolResult r.1)) none)

/-! ## The prime search -/

/-- `Candidate(bits)`: one draw with the top two bits and bit 0 forced to 1 (R130). -/
def candidate (bits : Nat) (e : Entropy) : Nat × Entropy :=
  let draw := e.drawBits bits
  (draw.1 ||| 2 ^ (bits - 1) ||| 2 ^ (bits - 2) ||| 1, draw.2)

/-- What a search has come to: `Found(c, count)`, `Exhausted(count)` (R131), or still running with the next candidate and
the count (R134; log 8). -/
inductive SearchResult where
  | found (c count : Nat)
  | exhausted (count : Nat)
  | running (c count : Nat)
  deriving DecidableEq, Repr

/-- The next candidate after `c` failed: `c + 2`, or a fresh draw where that would not fit (R131, R133; log 15). -/
def nextCandidate (bits c : Nat) (e : Entropy) : Nat × Entropy :=
  if 2 ^ bits ≤ c + 2 then candidate bits e else (c + 2, e)

/-- The loop of `PrimeSearch` (R131, R134), for at most `fuel` more candidates. -/
def searchLoop (bits rounds cap : Nat) : Nat → Nat → Nat → Entropy → SearchResult × Entropy
  | 0, c, count, e => (if cap ≠ 0 ∧ count = cap then .exhausted count else .running c count, e)
  | fuel + 1, c, count, e =>
      if cap ≠ 0 ∧ count = cap then (.exhausted count, e)
      else
        let t := millerRabin c rounds e
        if t.1 then (.found c (count + 1), t.2)
        else
          let c' := nextCandidate bits c t.2
          searchLoop bits rounds cap fuel c'.1 (count + 1) c'.2

/-- How many candidates one engine turn may test: all that the cap allows, or `burst + 1` without a cap (R134,
R294; log 8). -/
def searchFuel (cap burst : Nat) : Nat := if cap = 0 then burst + 1 else cap

/-- `PrimeSearch(bits, rounds, cap)` from its first candidate (R131). -/
def primeSearch (bits rounds cap burst : Nat) (e : Entropy) : SearchResult × Entropy :=
  let c := candidate bits e
  searchLoop bits rounds cap (searchFuel cap burst) c.1 0 c.2

/-- The search in this engine turn: from its first candidate, or on from where an earlier turn of an uncapped search
left it (log 8). -/
def searchTurn (bits rounds cap burst : Nat) (left : Option Search) (e : Entropy) : SearchResult × Entropy :=
  match left with
  | none => primeSearch bits rounds cap burst e
  | some q => searchLoop bits rounds cap (searchFuel cap burst) q.candidate q.count e

/-- The search an earlier turn left running; a capped search never leaves one (R134). -/
def State.leftRunning (s : State) : Option Search := if s.capOperand = 0 then s.search else none

/-- `PRIMEGEN bd, bits` (R136). -/
def execPrimegen (rd : Slot) (bits : Half) (s : State) : Host.Outcome State Fault Refusal :=
  if Config.primeSizes.contains (immOperand bits) then
    let r := searchTurn (immOperand bits) s.roundsOperand s.capOperand s.burst s.leftRunning s.entropy
    match r.1 with
    | .found c count => .next ((s.withEntropy r.2).completeOk [(rd, c)] none (some (saturate count)))
    | .exhausted count => .next ((s.withEntropy r.2).raise .primeSearchExhausted (some (saturate count)))
    | .running c count => .next ((s.withEntropy r.2).suspend { first := none, candidate := c, count := count })
  else .next (s.raise .invalidKeySize (some 0))

end Sys2Proof.Machine
end

