-- ==== Sys2Proof/Machine/KeyDerivation.lean ====
section
/-! DEFINITION. The key derivation family: `KeyDerive` (R171) and the commands DERIVE (R175) and KEYGEN (R180). -/

namespace Sys2Proof.Machine

/-- What `KeyDerive` returns (R171). -/
inductive KeyResult where
  | ok (n e d : Nat)
  | err (k : ErrKind)
  deriving DecidableEq, Repr

/-- `KeyDerive(p, q)`, p and q at least 2 (R171). -/
def keyDerive (p q : Nat) : KeyResult :=
  if 2 ^ Config.maxBits ≤ p * q then .err .operandRange
  else if gcdFn Config.ePub ((p - 1) * (q - 1)) ≠ 1 then .err .noInverseExists
  else .ok (p * q) Config.ePub (invFn Config.ePub ((p - 1) * (q - 1)))

/-- Completes a derivation: the triple in one commit (R170, R25), or the error with no slot written (R173). `cand` is the
write of CANDIDATES, where the command makes one. -/
def State.finishDerivation (s : State) (rd : Slot) (r : KeyResult) (cand : Option Word) : State :=
  match r with
  | .ok n e d => s.completeOk (tripleWrites rd n e d) none cand
  | .err k => s.raise k cand

/-- `DERIVE bd, bp, bq` (R175). RD above 5 is no command (R99) and ends as its word would (log 9). -/
def execDerive (rd ra rb : Slot) (s : State) : Host.Outcome State Fault Refusal :=
  let p := s.src ra
  let q := s.src rb
  if tripleFits rd then
    if p < 2 ∨ q < 2 then .next (s.raise .operandRange none)
    else .next (s.finishDerivation rd (keyDerive p q) none)
  else .next (s.raise .illegalCommand none)

/-- KEYGEN from the search for q on, with p found after `cp` candidates (R180, R181); `left` is a search for q that an
earlier turn left running. -/
def State.keygenSecond (s : State) (rd : Slot) (totalBits p cp : Nat) (left : Option Search) : State :=
  let r := searchTurn (totalBits - totalBits / 2) s.roundsOperand s.capOperand s.burst left s.entropy
  match r.1 with
  | .found q cq => (s.withEntropy r.2).finishDerivation rd (keyDerive p q) (some (saturate (cp + cq)))
  | .exhausted cq => (s.withEntropy r.2).raise .primeSearchExhausted (some (saturate (cp + cq)))
  | .running c cq => (s.withEntropy r.2).suspend { first := some (p, cp), candidate := c, count := cq }

/-- KEYGEN from the search for p on (R180, R182). -/
def State.keygenFirst (s : State) (rd : Slot) (totalBits : Nat) (left : Option Search) : State :=
  let r := searchTurn (totalBits / 2) s.roundsOperand s.capOperand s.burst left s.entropy
  match r.1 with
  | .found p cp => (s.withEntropy r.2).keygenSecond rd totalBits p cp none
  | .exhausted cp => (s.withEntropy r.2).raise .primeSearchExhausted (some (saturate cp))
  | .running c cp => (s.withEntropy r.2).suspend { first := none, candidate := c, count := cp }

/-- KEYGEN's two searches in order, going on where an uncapped one was left (R180, R182; log 8). -/
def State.keygenTurn (s : State) (rd : Slot) (totalBits : Nat) : State :=
  match s.leftRunning with
  | none => s.keygenFirst rd totalBits none
  | some q =>
      match q.first with
      | none => s.keygenFirst rd totalBits (some q)
      | some first => s.keygenSecond rd totalBits first.1 first.2 (some q)

/-- `KEYGEN bd, total_bits` (R180). RD above 5 is no command (R99) and ends as its word would (log 9). -/
def execKeygen (rd : Slot) (totalBits : Half) (s : State) : Host.Outcome State Fault Refusal :=
  if tripleFits rd then
    if Config.keySizes.contains (immOperand totalBits) then .next (s.keygenTurn rd (immOperand totalBits))
    else .next (s.raise .invalidKeySize (some 0))
  else .next (s.raise .illegalCommand none)

end Sys2Proof.Machine
end

