-- ==== Sys2Proof/Machine/Dispatch.lean ====
section
/-! DEFINITION. One arm per command: the meaning of each is its own definition in the family's file. -/

namespace Sys2Proof.Machine

def exec (i : Instr) (s : State) : Host.Outcome State Fault Refusal :=
  match i with
  | .nop => Sys2Proof.Machine.execNop s
  | .modexp rd ra rb rc => Sys2Proof.Machine.execModexp rd ra rb rc s
  | .cipher rd ra rb rc => Sys2Proof.Machine.execCipher rd ra rb rc s
  | .mrtest ra rounds => Sys2Proof.Machine.execMrtest ra rounds s
  | .gcd rd ra rb => Sys2Proof.Machine.execGcd rd ra rb s
  | .modinv rd ra rb => Sys2Proof.Machine.execModinv rd ra rb s
  | .primegen rd bits => Sys2Proof.Machine.execPrimegen rd bits s
  | .derive rd ra rb => Sys2Proof.Machine.execDerive rd ra rb s
  | .keygen rd totalBits => Sys2Proof.Machine.execKeygen rd totalBits s
  | .bitlen ra => Sys2Proof.Machine.execBitlen ra s

end Sys2Proof.Machine
end

