-- ==== Sys2Proof/Machine/Engine.lean ====
section
/-! DEFINITION. The engine's turn: the completion step of the running command (R240), and what a step of each agent
does. -/

namespace Sys2Proof.Machine

/-- The completion step runs the decoded command; a word that does not decode completes with IllegalCommand (R96,
R240). -/
def runWord (w : Word) (s : State) : Host.Outcome State Fault Refusal :=
  match decode w with
  | .command i => exec i s
  | .illegal _ => .next (s.raise .illegalCommand none)

/-- The engine's turn: nothing while RST is asserted (R280) or while idle (R266), else the completion step (R240). -/
def engineTurn (s : State) : Host.Outcome State Fault Refusal :=
  if s.rst then .next s
  else
    match s.phase with
    | .idle => .next s
    | .busy w _ _ => runWord w s

/-- One agent's step: a host access (R66 to R69), the engine's turn, or a level of RST (R280). -/
def runEvent (ev : Event) (s : State) : Host.Outcome State Fault Refusal :=
  match ev with
  | .read addr size => .next (s.hostRead addr size)
  | .write addr size v => .next (s.hostWrite addr size v)
  | .engine burst => engineTurn { s with burst := burst }
  | .rst level => .next (s.driveRst level)

/-- The state after `w` was issued on an idle, released block, the engine's turn coming next. -/
def State.fetched (s : State) (w : Word) : State :=
  { s.issue w with rst := false, agenda := .engine s.burst :: s.agenda }

end Sys2Proof.Machine
end

