-- ==== Sys2Proof/Machine/Step.lean ====
section
/-! DEFINITION. One step: the next event of the agenda (R70, R71, R294); with nothing pending, the engine's turn. -/

namespace Sys2Proof.Machine

/-- One atomic step of one agent (R70). An empty agenda leaves the turn to the engine (log 2). -/
def step (s : State) : Host.Outcome State Fault Refusal :=
  match s.agenda with
  | [] => engineTurn s
  | ev :: rest => runEvent ev { s with agenda := rest }

/-- `s` with the command word `w` issued, so that the very next step is its completion step: the block has no fetch,
and a command comes only from a write of CMD (R20, R23; log 10). -/
def State.withFetchWord (s : State) (nbits w : Nat) : State := s.fetched (BitVec.ofNat 32 (w % 2 ^ nbits))

end Sys2Proof.Machine
end

