-- ==== Sys2Proof/Safety.lean ====
section
/-! DEFINITION. What counts as a well-formed state (the invariant every step keeps), how a completed command leaves
the state, and what a command leaves alone: the terms the claims use. -/

namespace Sys2Proof.Machine

/-- What a prime candidate of `bits` bits satisfies (R130, R133, R135). -/
def InCandidateRange (bits c : Nat) : Prop := 3 * 2 ^ (bits - 2) ≤ c ∧ c < 2 ^ bits ∧ c % 2 = 1

/-- The entropy source after `k` more draws. -/
def Entropy.skip (e : Entropy) : Nat → Entropy
  | 0 => e
  | k + 1 => Entropy.skip e.next.2 k

/-- An uncapped search left running belongs to the command that runs, and its candidates are in range (R133,
R182). -/
def Search.Fits (q : Search) (w : Word) : Prop :=
  match decode w with
  | .command (.primegen _ bits) =>
      bits.toNat ∈ Config.primeSizes ∧ q.first = none ∧ InCandidateRange bits.toNat q.candidate
  | .command (.keygen _ totalBits) =>
      totalBits.toNat ∈ Config.keySizes ∧ InCandidateRange (totalBits.toNat / 2) q.candidate ∧
        ∀ f, q.first = some f → InCandidateRange (totalBits.toNat / 2) f.1
  | _ => False

/-- The invariant of the block. -/
structure State.Inv (s : State) : Prop where
  /-- Operand memory keeps its canonical form. -/
  memWf : s.mem.wf = true
  /-- ERR is set exactly when ERRCODE is not 0x00 (R30). -/
  errCode : s.err = true ↔ s.errcode ≠ 0
  /-- Codes 0x08 to 0xFF are never produced (R242). -/
  codeLegal : s.errcode.toNat ≤ 7
  /-- RESULT holds a boolean or a bit length (R32). -/
  resultBound : s.result.toNat ≤ 4096
  /-- While BUSY, DONE and ERR are 0 (R30), the slots are those of the snapshot (R66), the running word is CMD_LAST
  (R31). -/
  busy : ∀ w snap q, s.phase = .busy w snap q →
    s.done = false ∧ s.err = false ∧ snap.mem = s.mem ∧ s.cmdLast = w
  /-- A search left running is uncapped and fits its command (R134). -/
  search : ∀ w snap q, s.phase = .busy w snap (some q) → snap.cap = 0 ∧ q.Fits w
  /-- While RST is asserted the block is in its reset state (R280). -/
  held : s.rst = true → s = s.resetBlock

/-- The command completed without an error (R240). -/
structure State.DoneOk (t : State) : Prop where
  idle : t.phase = .idle
  done : t.done = true
  err : t.err = false
  errcode : t.errcode = 0

/-- The command completed with the error `k` (R240, R242). -/
structure State.DoneErr (t : State) (k : ErrKind) : Prop where
  idle : t.phase = .idle
  done : t.done = true
  err : t.err = true
  errcode : t.errcode = k.code

/-- What no command writes: the host's registers, OVR, CMD_LAST, the pin, the bus response and the inputs of the other
agents. -/
structure KeepsHostState (s t : State) : Prop where
  irqEn : t.irqEn = s.irqEn
  ovr : t.ovr = s.ovr
  cmdLast : t.cmdLast = s.cmdLast
  kgRounds : t.kgRounds = s.kgRounds
  searchCap : t.searchCap = s.searchCap
  rst : t.rst = s.rst
  resp : t.resp = s.resp
  burst : t.burst = s.burst
  agenda : t.agenda = s.agenda

/-- The offset is one of slot i's bytes (R21). -/
def InSlot (i : Slot) (a : Nat) : Prop := slotBase i ≤ a ∧ a < slotBase i + Config.slotBytes

/-- Every byte of operand memory outside the slots `is` reads as before. -/
def KeepsBytesOutside (is : List Slot) (s t : State) : Prop :=
  ∀ a, (∀ i ∈ is, ¬ InSlot i a) → t.mem.readByte a = s.mem.readByte a

/-- Every byte of operand memory reads as before. -/
def KeepsBytes (s t : State) : Prop := ∀ a, t.mem.readByte a = s.mem.readByte a

/-- A command that completed without an error left everything alone but the slots `is`, RESULT, CANDIDATES, the entropy
source and STATUS. -/
structure OkFrame (is : List Slot) (s t : State) : Prop where
  doneOk : t.DoneOk
  bytes : KeepsBytesOutside is s t
  host : KeepsHostState s t

/-- A command that ended with the error `k` wrote no slot and not RESULT (R241). -/
structure ErrFrame (k : ErrKind) (s t : State) : Prop where
  doneErr : t.DoneErr k
  bytes : KeepsBytes s t
  result : t.result = s.result
  host : KeepsHostState s t

/-- KEYGEN completed with p and q (R180, R181, R183): the triple n, e, d from `rd` on, n of `totalBits` bits, and
CANDIDATES, with the entropy source at `e`. -/
structure TripleCommitted (s t : State) (rd : Slot) (totalBits p q count : Nat) (e : Entropy) : Prop where
  frame : OkFrame [rd, slotAfter rd 1, slotAfter rd 2] s t
  modulus : t.mem.slot rd = p * q
  size : bitlen (p * q) = totalBits
  publicExponent : t.mem.slot (slotAfter rd 1) = 65537
  privateRange : t.mem.slot (slotAfter rd 2) < (p - 1) * (q - 1)
  congruence : 65537 * t.mem.slot (slotAfter rd 2) % ((p - 1) * (q - 1)) = 1
  candidates : t.candidates.toNat = min count 0xFFFFFFFF
  result : t.result = s.result
  entropy : t.entropy = e

/-- The slots a command may write (R22). -/
def destinations : Instr → List Slot
  | .nop => []
  | .modexp rd _ _ _ => [rd]
  | .cipher rd _ _ _ => [rd]
  | .mrtest _ _ => []
  | .gcd rd _ _ => [rd]
  | .modinv rd _ _ => [rd]
  | .primegen rd _ => [rd]
  | .derive rd _ _ => [rd, slotAfter rd 1, slotAfter rd 2]
  | .keygen rd _ => [rd, slotAfter rd 1, slotAfter rd 2]
  | .bitlen _ => []

/-- MRTEST and BITLEN write RESULT (R32). -/
def writesResult : Instr → Bool
  | .nop => false
  | .modexp _ _ _ _ => false
  | .cipher _ _ _ _ => false
  | .mrtest _ _ => true
  | .gcd _ _ _ => false
  | .modinv _ _ _ => false
  | .primegen _ _ => false
  | .derive _ _ _ => false
  | .keygen _ _ => false
  | .bitlen _ => true

/-- PRIMEGEN and KEYGEN search for primes and write CANDIDATES (R35). -/
def searches : Instr → Bool
  | .nop => false
  | .modexp _ _ _ _ => false
  | .cipher _ _ _ _ => false
  | .mrtest _ _ => false
  | .gcd _ _ _ => false
  | .modinv _ _ _ => false
  | .primegen _ _ => true
  | .derive _ _ _ => false
  | .keygen _ _ => true
  | .bitlen _ => false

/-- The engine has the next turn: nothing else is pending, or the agenda gives it the turn. -/
def State.engineNext (s : State) : Bool :=
  match s.agenda with
  | [] => true
  | .engine _ :: _ => true
  | .read _ _ :: _ => false
  | .write _ _ _ :: _ => false
  | .rst _ :: _ => false

/-- The state the engine's turn acts on: its event, if there is one, taken from the agenda. -/
def State.engineView (s : State) : State :=
  match s.agenda with
  | .engine burst :: rest => { s with agenda := rest, burst := burst }
  | [] => s
  | .read _ _ :: _ => s
  | .write _ _ _ :: _ => s
  | .rst _ :: _ => s

/-- The engine's completion step of the word `w` ends with IllegalCommand, code 0x01, and writes no slot, RESULT or
CANDIDATES (R96, R241). -/
def CompletesIllegal (w : Word) : Prop :=
  ∀ (s : State) (snap : Snapshot) (q : Option Search),
    s.engineNext = true → s.rst = false → s.phase = .busy w snap q →
    ∃ t, step s = .next t ∧ ErrFrame .illegalCommand s.engineView t ∧ t.errcode = 0x01 ∧
      t.candidates = s.candidates ∧ t.entropy = s.entropy

/-- A field that R95 says must be zero is not. -/
def MustBeZeroViolated (w : Word) : Prop :=
  let op := (opField w).toNat
  let z12 := w.extractLsb' 20 12
  let z2 := w.extractLsb' 14 2
  (op = 0 ∧ (rdField w ≠ 0 ∨ raField w ≠ 0 ∨ rbField w ≠ 0 ∨ rcField w ≠ 0 ∨ z12 ≠ 0)) ∨
  ((op = 1 ∨ op = 2) ∧ z12 ≠ 0) ∨
  (op = 3 ∧ (rdField w ≠ 0 ∨ z2 ≠ 0)) ∨
  ((op = 4 ∨ op = 5 ∨ op = 7) ∧ (rcField w ≠ 0 ∨ z12 ≠ 0)) ∨
  ((op = 6 ∨ op = 8) ∧ (raField w ≠ 0 ∨ z2 ≠ 0)) ∨
  (op = 9 ∧ (rdField w ≠ 0 ∨ rbField w ≠ 0 ∨ rcField w ≠ 0 ∨ z12 ≠ 0))

/-- Everything the block holds but the bus response and the agenda is as before. -/
def KeepsBlock (s t : State) : Prop := t = { s with resp := t.resp, agenda := t.agenda }

end Sys2Proof.Machine
end

