-- ==== Sys2Proof/Certificates/Slice0/Obligations.lean ====
section
/-! DEFINITION. The statements for the provers, in the order of OBLIGATIONS.json. -/

open Sys2Proof Sys2Proof.Machine

/-! ## Words and commands -/

/-- R91, R92, R95, R96, R98, R101: decoding an encoded well-formed command gives it back, and a word that decodes is the
one encoding of a well-formed command. -/
def Obligations.DecodeAndEncodeAgree : Prop :=
  (∀ i : Instr, i.wellFormed = true → decode (encode i) = .command i) ∧
  ∀ (w : Word) (i : Instr), decode w = .command i → encode i = w ∧ i.wellFormed = true

/-- Words of R101's examples and of 95_test_vectors.md section 2.1 decode as they say (R95). -/
def Obligations.WrittenOutWordsDecode : Prop :=
  decode 0x00000000 = .command .nop ∧
  decode 0x00044301 = .command (.modexp 3 0 1 2) ∧
  decode 0x00021C02 = .command (.cipher 4 3 0 1) ∧
  decode 0xFFFF3803 = .command (.mrtest 7 65535) ∧
  decode 0x00004204 = .command (.gcd 2 0 1) ∧
  decode 0x00004205 = .command (.modinv 2 0 1) ∧
  decode 0x08000706 = .command (.primegen 7 2048) ∧
  decode 0x00004507 = .command (.derive 5 0 1) ∧
  decode 0x10000508 = .command (.keygen 5 4096) ∧
  decode 0x00002009 = .command (.bitlen 4)

/-- R102, R103: `ENCRYPT` and `DECRYPT` are `CIPHER` on a key triple. -/
def Obligations.EncryptAndDecryptExpand : Prop :=
  ∀ (d m k : Slot), k.val ≤ 5 →
    assemble (.encrypt d m k) = some (.cipher d m k (slotAfter k 1)) ∧
    assemble (.decrypt d m k) = some (.cipher d m k (slotAfter k 2))

/-- R97: a reserved opcode completes with IllegalCommand, whatever the other bits hold. -/
def Obligations.ReservedOpcodesAreIllegal : Prop :=
  ∀ w : Word, 0x0A ≤ (opField w).toNat → CompletesIllegal w

/-- R98: a defined opcode with a nonzero must-be-zero field completes with IllegalCommand. -/
def Obligations.NonzeroMustBeZeroIsIllegal : Prop :=
  ∀ w : Word, MustBeZeroViolated w → CompletesIllegal w

/-- R99: DERIVE or KEYGEN with RD 6 or 7 completes with IllegalCommand. -/
def Obligations.TripleBeyondLastSlotIsIllegal : Prop :=
  ∀ w : Word, ((opField w).toNat = 7 ∨ (opField w).toNat = 8) → 6 ≤ (rdField w).val → CompletesIllegal w

/-- R96, R240: when the engine has the turn and the running word decodes, the step is the command's meaning, on the state
with the turn taken from the agenda. -/
def Obligations.StepRunsDecodedCommand : Prop :=
  ∀ (s : State) (w : Word) (snap : Snapshot) (q : Option Search) (i : Instr),
    s.engineNext = true → s.rst = false → s.phase = .busy w snap q → decode w = .command i →
    step s = exec i s.engineView

/-! ## The arithmetic primitives -/

/-- R4: square-and-multiply computes b^x mod m. -/
def Obligations.ModExpIsPowerModulo : Prop :=
  ∀ b x m : Nat, 1 ≤ m → modExpFn b x m = b ^ x % m

/-- R6, R157: `InvFn` is the unique inverse in [0, m); for m = 1 it is 0. -/
def Obligations.InverseIsTheUniqueLeast : Prop :=
  (∀ a m : Nat, 1 ≤ m → gcdFn (a % m) m = 1 →
    invFn a m < m ∧ a * invFn a m % m = 1 % m ∧ ∀ x < m, a * x % m = 1 % m → x = invFn a m) ∧
  ∀ a : Nat, invFn a 1 = 0

/-- R122: n - 1 = 2^s d with d odd; s ≥ 1 for odd n, s = 0 and d = n - 1 for even n; the witness range is not empty. -/
def Obligations.OddPartSplitsExactly : Prop :=
  ∀ n : Nat, 5 ≤ n →
    n - 1 = 2 ^ (oddPart n).2 * (oddPart n).1 ∧ (oddPart n).1 % 2 = 1 ∧
    (n % 2 = 1 → 1 ≤ (oddPart n).2) ∧ (n % 2 = 0 → (oddPart n).2 = 0 ∧ (oddPart n).1 = n - 1) ∧ 2 ≤ n - 2

/-! ## Draws, Miller-Rabin and the prime search -/

/-- R9, R10: a draw answers a value of its range, takes one answer of the source, and every value of the range can
come. -/
def Obligations.DrawsTakeEveryValueInRange : Prop :=
  (∀ (e : Entropy) (k : Nat), (e.drawBits k).1 < 2 ^ k ∧ (e.drawBits k).2.drawn = e.drawn + 1) ∧
  (∀ (k r n : Nat), r < 2 ^ k → ∃ e : Entropy, e.drawn = n ∧ (e.drawBits k).1 = r) ∧
  (∀ (e : Entropy) (lo hi : Nat), lo ≤ hi →
    lo ≤ (e.drawWitness lo hi).1 ∧ (e.drawWitness lo hi).1 ≤ hi ∧ (e.drawWitness lo hi).2.drawn = e.drawn + 1) ∧
  (∀ (lo hi a n : Nat), lo ≤ a → a ≤ hi → ∃ e : Entropy, e.drawn = n ∧ (e.drawWitness lo hi).1 = a)

/-- R121: 0, 1 and 4 give false, 2 and 3 give true, with no draw, whatever `rounds` is. -/
def Obligations.SmallValuesNeedNoDraw : Prop :=
  ∀ (rounds : Nat) (e : Entropy),
    millerRabin 0 rounds e = (false, e) ∧ millerRabin 1 rounds e = (false, e) ∧
    millerRabin 4 rounds e = (false, e) ∧ millerRabin 2 rounds e = (true, e) ∧ millerRabin 3 rounds e = (true, e)

/-- R124: for n ≥ 5 a round draws one witness in [2, n - 2] and goes on to the rounds left where `roundPasses` says so of
it, else the answer is false with no draw after it; with rounds = 0 the answer is true with no draw. So it is true exactly
when every round passed, and the first failing round is the last. -/
def Obligations.RoundsDrawOneWitnessEach : Prop :=
  ∀ (n rounds : Nat) (e : Entropy), 5 ≤ n →
    millerRabin n 0 e = (true, e) ∧
    (2 ≤ (e.drawWitness 2 (n - 2)).1 ∧ (e.drawWitness 2 (n - 2)).1 ≤ n - 2 ∧
      (e.drawWitness 2 (n - 2)).2.drawn = e.drawn + 1 ∧
      millerRabin n (rounds + 1) e =
        if roundPasses n (oddPart n).1 (oddPart n).2 (e.drawWitness 2 (n - 2)).1
        then millerRabin n rounds (e.drawWitness 2 (n - 2)).2 else (false, (e.drawWitness 2 (n - 2)).2)) ∧
    ((millerRabin n rounds e).1 = true →
      (millerRabin n rounds e).2.drawn = e.drawn + rounds ∧ ∀ k ≤ rounds, (millerRabin n k e).1 = true) ∧
    (∀ k ≤ rounds, (millerRabin n k e).1 = false → millerRabin n rounds e = millerRabin n k e) ∧
    ((millerRabin n rounds e).1 = false → ∃ k, k < rounds ∧
      (millerRabin n k e).1 = true ∧ (millerRabin n (k + 1) e).1 = false ∧
      (millerRabin n rounds e).2 = (millerRabin n (k + 1) e).2 ∧
      (millerRabin n rounds e).2.drawn = e.drawn + k + 1)

/-- R120, R123, with n - 1 = 2^s d, d odd: a round on an odd n ≥ 5, prime or composite, passes exactly when x = a^d mod n is
1, or n - 1 is met among x and its at most s - 1 squarings; a round on an even n ≥ 6 (s = 0, d = n - 1) exactly when x is
1 or n - 1. -/
def Obligations.RoundsPassAtOneOrMinusOne : Prop :=
  (∀ n a : Nat, 5 ≤ n → n % 2 = 1 →
    (roundPasses n (oddPart n).1 (oddPart n).2 a = true ↔
      a ^ (oddPart n).1 % n = 1 ∨ ∃ r < (oddPart n).2, a ^ (2 ^ r * (oddPart n).1) % n = n - 1)) ∧
  ∀ n a : Nat, 6 ≤ n → n % 2 = 0 →
    (roundPasses n (oddPart n).1 (oddPart n).2 a = true ↔
      a ^ (n - 1) % n = 1 ∨ a ^ (n - 1) % n = n - 1)

/-- The note after R124: MillerRabin returns true for every prime, every number of rounds and all draws. -/
def Obligations.PrimesPassUnderEveryDraw : Prop :=
  ∀ (p rounds : Nat) (e : Entropy), p.Prime → (millerRabin p rounds e).1 = true

/-- R130: a candidate takes one draw r and is r with the top two bits and bit 0 forced to 1; it lies in
[3 * 2^(bits-2), 2^bits - 1] and is odd. -/
def Obligations.CandidatesHaveTheirTopBits : Prop :=
  ∀ (bits : Nat) (e : Entropy), bits ∈ Config.primeSizes →
    candidate bits e =
      ((e.drawBits bits).1 ||| 2 ^ (bits - 1) ||| 2 ^ (bits - 2) ||| 1, (e.drawBits bits).2) ∧
    3 * 2 ^ (bits - 2) ≤ (candidate bits e).1 ∧ (candidate bits e).1 ≤ 2 ^ bits - 1 ∧ (candidate bits e).1 % 2 = 1

/-- R135: a returned prime is odd, has bit length `bits` and its top two bits set, and MillerRabin returned true for it
with the draws made: those that follow the k ≥ 1 draws the search had made before; with rounds = 0 the first candidate is
returned, prime or not. -/
def Obligations.FoundPrimesKeepTheirShape : Prop :=
  (∀ (bits rounds cap burst c count : Nat) (e e' : Entropy), bits ∈ Config.primeSizes →
    primeSearch bits rounds cap burst e = (.found c count, e') →
    c % 2 = 1 ∧ bitlen c = bits ∧ c.testBit (bits - 1) = true ∧ c.testBit (bits - 2) = true ∧
    ∃ k, 1 ≤ k ∧ millerRabin c rounds (e.skip k) = (true, e')) ∧
  ∀ (bits cap burst : Nat) (e : Entropy), bits ∈ Config.primeSizes →
    primeSearch bits 0 cap burst e = (.found (candidate bits e).1 1, (candidate bits e).2)

/-- R134: with a cap the search tests at most `cap` candidates: it finds one, or is exhausted at `cap`. -/
def Obligations.CappedSearchEndsWithinTheCap : Prop :=
  ∀ (bits rounds cap burst : Nat) (e : Entropy), cap ≠ 0 →
    (∃ c count e', primeSearch bits rounds cap burst e = (.found c count, e') ∧ 1 ≤ count ∧ count ≤ cap) ∨
    ∃ e', primeSearch bits rounds cap burst e = (.exhausted cap, e')

/-- R134, R294 (log 8): an uncapped search that an engine turn left running goes on as if the two turns had been one. -/
def Obligations.UncappedSearchResumesWhereItStopped : Prop :=
  ∀ (bits rounds f g c count c' count' : Nat) (e e' : Entropy),
    searchLoop bits rounds 0 f c count e = (.running c' count', e') →
    searchLoop bits rounds 0 (f + g) c count e = searchLoop bits rounds 0 g c' count' e'

/-- R134, R292: with CAP = 0 there are draws under which a PRIMEGEN is busy after any number k of engine turns, with no slot
written. The agenda is empty, so each of the k steps is an engine turn, and each tests a candidate. The cut of the search
into turns is the model's choice (log 8), as is that an empty agenda gives the engine the turn (log 2). -/
def Obligations.UncappedSearchMayNeverReturn : Prop :=
  ∀ k : Nat, ∃ s : State, s.Inv ∧ s.searchCap = 0 ∧ s.phase = .busy 0x01000006 s.takeSnapshot none ∧ s.agenda = [] ∧
    ∃ t, Host.Core.run core k s = .next t ∧ t.busy = true ∧ t.agenda = [] ∧ KeepsBytes s t ∧
      (1 ≤ k → ∃ q, t.phase = .busy 0x01000006 s.takeSnapshot (some q) ∧ k ≤ q.count)

/-! ## What each command does, and that it completes -/

/-- R206: NOP completes and changes nothing but STATUS and the phase. -/
def Obligations.NopOnlyCompletes : Prop :=
  ∀ s : State, ∃ t, exec .nop s = .next t ∧ OkFrame [] s t ∧
    t.result = s.result ∧ t.candidates = s.candidates ∧ t.entropy = s.entropy

/-- R220, R222: MODEXP writes base^exponent mod modulus for every base, also at or above the modulus. -/
def Obligations.ModexpWritesThePower : Prop :=
  ∀ (s : State) (rd ra rb rc : Slot), s.src rc ≠ 0 →
    ∃ t, exec (.modexp rd ra rb rc) s = .next t ∧ OkFrame [rd] s t ∧
      t.mem.slot rd = s.src ra ^ s.src rb % s.src rc ∧
      t.result = s.result ∧ t.candidates = s.candidates ∧ t.entropy = s.entropy

/-- R221, R156: a zero modulus is reported by MODEXP, CIPHER and MODINV, and no slot is written. -/
def Obligations.ZeroModulusIsReported : Prop :=
  ∀ (s : State) (rd ra rb rc : Slot),
    (s.src rc = 0 → ∃ t, exec (.modexp rd ra rb rc) s = .next t ∧ ErrFrame .zeroModulus s t ∧
      t.candidates = s.candidates ∧ t.entropy = s.entropy) ∧
    (s.src rb = 0 → ∃ t, exec (.cipher rd ra rb rc) s = .next t ∧ ErrFrame .zeroModulus s t ∧
      t.candidates = s.candidates ∧ t.entropy = s.entropy) ∧
    (s.src rb = 0 → ∃ t, exec (.modinv rd ra rb) s = .next t ∧ ErrFrame .zeroModulus s t ∧
      t.candidates = s.candidates ∧ t.entropy = s.entropy)

/-- R225: CIPHER writes s^x mod n for an input below n. -/
def Obligations.CipherTransformsItsInput : Prop :=
  ∀ (s : State) (rd ra rb rc : Slot), s.src ra < s.src rb →
    ∃ t, exec (.cipher rd ra rb rc) s = .next t ∧ OkFrame [rd] s t ∧
      t.mem.slot rd = s.src ra ^ s.src rc % s.src rb ∧
      t.result = s.result ∧ t.candidates = s.candidates ∧ t.entropy = s.entropy

/-- R226: CIPHER raises MessageTooLarge for an input that is not below a nonzero modulus. -/
def Obligations.CipherRejectsLargeInput : Prop :=
  ∀ (s : State) (rd ra rb rc : Slot), s.src rb ≠ 0 → s.src rb ≤ s.src ra →
    ∃ t, exec (.cipher rd ra rb rc) s = .next t ∧ ErrFrame .messageTooLarge s t ∧
      t.candidates = s.candidates ∧ t.entropy = s.entropy

/-- R125: MRTEST writes 1 to RESULT for MillerRabin true and 0 for false, consumes its draws, and writes no slot. -/
def Obligations.MrtestWritesTheVerdict : Prop :=
  ∀ (s : State) (ra : Slot) (rounds : Half),
    ∃ t, exec (.mrtest ra rounds) s = .next t ∧ OkFrame [] s t ∧
      t.result = (if (millerRabin (s.src ra) rounds.toNat s.entropy).1 then 1 else 0) ∧
      t.candidates = s.candidates ∧ t.entropy = (millerRabin (s.src ra) rounds.toNat s.entropy).2

/-- R5, R150, R151: GCD writes the greatest common divisor, with gcd(a, 0) = gcd(0, a) = a. -/
def Obligations.GcdWritesTheDivisor : Prop :=
  ∀ (s : State) (rd ra rb : Slot),
    ∃ t, exec (.gcd rd ra rb) s = .next t ∧ OkFrame [rd] s t ∧
      (t.mem.slot rd ∣ s.src ra ∧ t.mem.slot rd ∣ s.src rb ∧
        ∀ k, k ∣ s.src ra → k ∣ s.src rb → k ∣ t.mem.slot rd) ∧
      (s.src rb = 0 → t.mem.slot rd = s.src ra) ∧ (s.src ra = 0 → t.mem.slot rd = s.src rb) ∧
      t.result = s.result ∧ t.candidates = s.candidates ∧ t.entropy = s.entropy

/-- R155, R157: MODINV writes the inverse in [0, m) where there is one. -/
def Obligations.ModinvWritesTheInverse : Prop :=
  ∀ (s : State) (rd ra rb : Slot), s.src rb ≠ 0 → Nat.gcd (s.src ra) (s.src rb) = 1 →
    ∃ t, exec (.modinv rd ra rb) s = .next t ∧ OkFrame [rd] s t ∧
      t.mem.slot rd < s.src rb ∧ s.src ra * t.mem.slot rd % s.src rb = 1 % s.src rb ∧
      t.result = s.result ∧ t.candidates = s.candidates ∧ t.entropy = s.entropy

/-- R155, R173, R175: MODINV raises NoInverseExists when gcd(a, m) is not 1, DERIVE when gcd(65537, φ) is not 1. -/
def Obligations.NoInverseIsReported : Prop :=
  (∀ (s : State) (rd ra rb : Slot), s.src rb ≠ 0 → Nat.gcd (s.src ra) (s.src rb) ≠ 1 →
    ∃ t, exec (.modinv rd ra rb) s = .next t ∧ ErrFrame .noInverseExists s t ∧
      t.candidates = s.candidates ∧ t.entropy = s.entropy) ∧
  ∀ (s : State) (rd ra rb : Slot), rd.val ≤ 5 → 2 ≤ s.src ra → 2 ≤ s.src rb → s.src ra * s.src rb < 2 ^ 4096 →
    Nat.gcd 65537 ((s.src ra - 1) * (s.src rb - 1)) ≠ 1 →
    ∃ t, exec (.derive rd ra rb) s = .next t ∧ ErrFrame .noInverseExists s t ∧
      t.candidates = s.candidates ∧ t.entropy = s.entropy

/-- R136, R132: PRIMEGEN commits the prime its search finds and the count of candidates, saturated. The search is the one
of this engine turn: from its start, or going on from where an uncapped one was left (log 8). -/
def Obligations.PrimegenCommitsTheFoundPrime : Prop :=
  ∀ (s : State) (rd : Slot) (bits : Half) (c count : Nat) (e : Entropy),
    bits.toNat ∈ Config.primeSizes →
    (∀ q, s.leftRunning = some q → InCandidateRange bits.toNat q.candidate) →
    searchTurn bits.toNat s.roundsOperand s.capOperand s.burst s.leftRunning s.entropy = (.found c count, e) →
    ∃ t, exec (.primegen rd bits) s = .next t ∧ OkFrame [rd] s t ∧
      t.mem.slot rd = c ∧ t.candidates.toNat = min count 0xFFFFFFFF ∧ t.result = s.result ∧ t.entropy = e

/-- R132, R136, R181, R184: a size outside the set is InvalidKeySize, before any draw, with CANDIDATES 0 and no slot written. -/
def Obligations.IllegalSizesAreReported : Prop :=
  (∀ (s : State) (rd : Slot) (bits : Half), bits.toNat ∉ [256, 512, 1024, 2048] →
    ∃ t, exec (.primegen rd bits) s = .next t ∧ ErrFrame .invalidKeySize s t ∧
      t.candidates = 0 ∧ t.entropy = s.entropy) ∧
  ∀ (s : State) (rd : Slot) (totalBits : Half), rd.val ≤ 5 → totalBits.toNat ∉ [512, 1024, 2048, 4096] →
    ∃ t, exec (.keygen rd totalBits) s = .next t ∧ ErrFrame .invalidKeySize s t ∧
      t.candidates = 0 ∧ t.entropy = s.entropy

/-- R171, R172: what a successful derivation satisfies, also where p = q = 2 gives φ = 1. -/
def Obligations.DerivedKeySatisfiesItsCongruence : Prop :=
  ∀ p q n e d : Nat, 2 ≤ p → 2 ≤ q → keyDerive p q = .ok n e d →
    n = p * q ∧ e = 65537 ∧ d < (p - 1) * (q - 1) ∧ e * d ≡ 1 [MOD (p - 1) * (q - 1)] ∧
    (2 ≤ (p - 1) * (q - 1) → e * d % ((p - 1) * (q - 1)) = 1) ∧
    ((p - 1) * (q - 1) = 1 → p = 2 ∧ q = 2 ∧ d = 0 ∧ e * d % ((p - 1) * (q - 1)) = 0)

/-- R175, R170, R177: DERIVE commits n, e, d to three slots in one step, with no check that p and q differ or are
prime. -/
def Obligations.DeriveWritesTheTriple : Prop :=
  ∀ (s : State) (rd ra rb : Slot), rd.val ≤ 5 → 2 ≤ s.src ra → 2 ≤ s.src rb → s.src ra * s.src rb < 2 ^ 4096 →
    Nat.gcd 65537 ((s.src ra - 1) * (s.src rb - 1)) = 1 →
    ∃ t, exec (.derive rd ra rb) s = .next t ∧ OkFrame [rd, slotAfter rd 1, slotAfter rd 2] s t ∧
      t.mem.slot rd = s.src ra * s.src rb ∧ t.mem.slot (slotAfter rd 1) = 65537 ∧
      t.mem.slot (slotAfter rd 2) < (s.src ra - 1) * (s.src rb - 1) ∧
      65537 * t.mem.slot (slotAfter rd 2) ≡ 1 [MOD (s.src ra - 1) * (s.src rb - 1)] ∧
      t.result = s.result ∧ t.candidates = s.candidates ∧ t.entropy = s.entropy

/-- R176, R178: DERIVE raises OperandRange for p < 2, q < 2 or a product that does not fit a slot. -/
def Obligations.DeriveReportsOperandRange : Prop :=
  ∀ (s : State) (rd ra rb : Slot), rd.val ≤ 5 →
    (s.src ra < 2 ∨ s.src rb < 2 ∨ 2 ^ 4096 ≤ s.src ra * s.src rb) →
    ∃ t, exec (.derive rd ra rb) s = .next t ∧ ErrFrame .operandRange s t ∧
      t.candidates = s.candidates ∧ t.entropy = s.entropy

/-- R180, R181, R182, R183: KEYGEN whose two searches find p and q commits the triple; n has exactly `total_bits` bits, and
CANDIDATES counts both searches. The first clause has the search for p in this engine turn, from its start or going on; in
the second an earlier turn of an uncapped KEYGEN found p (log 8). -/
def Obligations.KeygenCommitsTheTriple : Prop :=
  ∀ (s : State) (rd : Slot) (totalBits : Half) (p cp q cq : Nat) (e₁ e₂ : Entropy),
    rd.val ≤ 5 → totalBits.toNat ∈ Config.keySizes → Nat.gcd 65537 ((p - 1) * (q - 1)) = 1 →
    ((∀ l, s.leftRunning = some l → l.first = none ∧ InCandidateRange (totalBits.toNat / 2) l.candidate) →
      searchTurn (totalBits.toNat / 2) s.roundsOperand s.capOperand s.burst s.leftRunning s.entropy
        = (.found p cp, e₁) →
      primeSearch (totalBits.toNat / 2) s.roundsOperand s.capOperand s.burst e₁ = (.found q cq, e₂) →
      ∃ t, exec (.keygen rd totalBits) s = .next t ∧ TripleCommitted s t rd totalBits.toNat p q (cp + cq) e₂) ∧
    ∀ l, s.leftRunning = some l → l.first = some (p, cp) → InCandidateRange (totalBits.toNat / 2) p →
      InCandidateRange (totalBits.toNat / 2) l.candidate →
      searchTurn (totalBits.toNat / 2) s.roundsOperand s.capOperand s.burst (some l) s.entropy
        = (.found q cq, e₂) →
      ∃ t, exec (.keygen rd totalBits) s = .next t ∧ TripleCommitted s t rd totalBits.toNat p q (cp + cq) e₂

/-- R136, R132: PRIMEGEN reports an exhausted search. R180, R181: KEYGEN reports an exhausted search for p (cq counts 0) or
for q, and NoInverseExists after both, also where an earlier turn of an uncapped KEYGEN found p (log 8). Each writes
CANDIDATES. -/
def Obligations.SearchErrorsAreReported : Prop :=
  (∀ (s : State) (rd : Slot) (bits : Half) (count : Nat) (e : Entropy),
    bits.toNat ∈ Config.primeSizes →
    searchTurn bits.toNat s.roundsOperand s.capOperand s.burst s.leftRunning s.entropy = (.exhausted count, e) →
    ∃ t, exec (.primegen rd bits) s = .next t ∧ ErrFrame .primeSearchExhausted s t ∧
      t.candidates.toNat = min count 0xFFFFFFFF ∧ t.entropy = e) ∧
  ∀ (s : State) (rd : Slot) (totalBits : Half),
    rd.val ≤ 5 → totalBits.toNat ∈ Config.keySizes →
    ((∀ l, s.leftRunning = some l → l.first = none) →
    (∀ cp e₁, searchTurn (totalBits.toNat / 2) s.roundsOperand s.capOperand s.burst s.leftRunning s.entropy
        = (.exhausted cp, e₁) →
      ∃ t, exec (.keygen rd totalBits) s = .next t ∧ ErrFrame .primeSearchExhausted s t ∧
        t.candidates.toNat = min cp 0xFFFFFFFF ∧ t.entropy = e₁) ∧
    (∀ p cp cq e₁ e₂, searchTurn (totalBits.toNat / 2) s.roundsOperand s.capOperand s.burst s.leftRunning s.entropy
        = (.found p cp, e₁) →
      primeSearch (totalBits.toNat / 2) s.roundsOperand s.capOperand s.burst e₁ = (.exhausted cq, e₂) →
      ∃ t, exec (.keygen rd totalBits) s = .next t ∧ ErrFrame .primeSearchExhausted s t ∧
        t.candidates.toNat = min (cp + cq) 0xFFFFFFFF ∧ t.entropy = e₂) ∧
    (∀ p cp q cq e₁ e₂, searchTurn (totalBits.toNat / 2) s.roundsOperand s.capOperand s.burst s.leftRunning s.entropy
        = (.found p cp, e₁) →
      primeSearch (totalBits.toNat / 2) s.roundsOperand s.capOperand s.burst e₁ = (.found q cq, e₂) →
      InCandidateRange (totalBits.toNat / 2) p → Nat.gcd 65537 ((p - 1) * (q - 1)) ≠ 1 →
      ∃ t, exec (.keygen rd totalBits) s = .next t ∧ ErrFrame .noInverseExists s t ∧
        t.candidates.toNat = min (cp + cq) 0xFFFFFFFF ∧ t.entropy = e₂)) ∧
    ∀ l p cp q cq e₂, s.leftRunning = some l → l.first = some (p, cp) → InCandidateRange (totalBits.toNat / 2) p →
      InCandidateRange (totalBits.toNat / 2) l.candidate →
      searchTurn (totalBits.toNat / 2) s.roundsOperand s.capOperand s.burst (some l) s.entropy
        = (.found q cq, e₂) →
      Nat.gcd 65537 ((p - 1) * (q - 1)) ≠ 1 →
      ∃ t, exec (.keygen rd totalBits) s = .next t ∧ ErrFrame .noInverseExists s t ∧
        t.candidates.toNat = min (cp + cq) 0xFFFFFFFF ∧ t.entropy = e₂

/-- R134, R292 (log 8): an uncapped search that one engine turn does not end leaves the command busy, with no slot and no
register written. -/
def Obligations.UnfinishedSearchKeepsTheCommandBusy : Prop :=
  ∀ (s t : State) (w : Word) (snap : Snapshot) (q : Option Search) (i : Instr),
    s.phase = .busy w snap q → exec i s = .next t → t.busy = true →
    searches i = true ∧ snap.cap = 0 ∧ (∃ q', t.phase = .busy w snap (some q')) ∧ t.mem = s.mem ∧
    t.result = s.result ∧ t.candidates = s.candidates ∧ t.statusWord = s.statusWord ∧ KeepsHostState s t

/-- R202: BITLEN writes the bit length, 0 to 4096, to RESULT and writes no slot. -/
def Obligations.BitlenWritesTheLength : Prop :=
  ∀ (s : State) (ra : Slot),
    ∃ t, exec (.bitlen ra) s = .next t ∧ OkFrame [] s t ∧
      t.result.toNat ≤ 4096 ∧ s.src ra < 2 ^ t.result.toNat ∧
      (s.src ra ≠ 0 → 1 ≤ t.result.toNat ∧ 2 ^ (t.result.toNat - 1) ≤ s.src ra) ∧
      (s.src ra = 0 → t.result = 0) ∧ t.candidates = s.candidates ∧ t.entropy = s.entropy

/-! ## What all commands keep -/

/-- R22, R32, R35: a command changes no byte outside the destination slots it names, no host register, RESULT only for
MRTEST and BITLEN, CANDIDATES only for PRIMEGEN and KEYGEN. -/
def Obligations.CommandsWriteOnlyTheirDestinations : Prop :=
  ∀ (i : Instr) (s t : State), exec i s = .next t →
    KeepsBytesOutside (destinations i) s t ∧ KeepsHostState s t ∧
    (writesResult i = false → t.result = s.result) ∧
    (searches i = false → t.candidates = s.candidates)

/-- R241: a command that raises an error writes no slot and not RESULT, and CANDIDATES only if it is PRIMEGEN or
KEYGEN. -/
def Obligations.ErrorsCommitNothing : Prop :=
  ∀ (i : Instr) (s t : State), exec i s = .next t → t.err = true → s.err = false →
    KeepsBytes s t ∧ t.result = s.result ∧ KeepsHostState s t ∧ t.phase = .idle ∧ t.done = true ∧
    1 ≤ t.errcode.toNat ∧ t.errcode.toNat ≤ 7 ∧ (searches i = false → t.candidates = s.candidates)

/-- R24, R75, R227: what a command computes depends on its snapshot and its draws alone: two states that agree on the
phase (word and snapshot), on the entropy source and on `burst` (the model's own, log 8) complete alike, whatever the host wrote to the slots
and registers since. -/
def Obligations.CommandsReadOnlyTheirSnapshot : Prop :=
  ∀ (i : Instr) (s₁ s₂ t₁ t₂ : State),
    i.wellFormed = true → s₁.busy = true → s₁.phase = s₂.phase → s₁.entropy = s₂.entropy → s₁.burst = s₂.burst →
    exec i s₁ = .next t₁ → exec i s₂ = .next t₂ →
    t₁.phase = t₂.phase ∧ t₁.entropy = t₂.entropy ∧
    (t₁.busy = false → t₁.done = t₂.done ∧ t₁.err = t₂.err ∧ t₁.errcode = t₂.errcode ∧
      (t₁.err = false → ∀ d ∈ destinations i, t₁.mem.slot d = t₂.mem.slot d) ∧
      (t₁.err = false → writesResult i = true → t₁.result = t₂.result) ∧
      (searches i = true → t₁.candidates = t₂.candidates))

/-- R294: every command but an uncapped search completes in one engine turn, whatever the draws. -/
def Obligations.CappedCommandsComplete : Prop :=
  ∀ (s : State) (w : Word) (snap : Snapshot) (q : Option Search),
    s.engineNext = true → s.rst = false → s.phase = .busy w snap q →
    (snap.cap ≠ 0 ∨ ∀ i, decode w = .command i → searches i = false) →
    ∃ t, step s = .next t ∧ t.phase = .idle ∧ t.done = true

/-! ## The host's accesses -/

/-- R23: BUSY is 1 exactly in the busy phase; a write of CMD issues the word while idle, and is dropped with OVR while
busy. -/
def Obligations.CmdWriteIssuesOrIsDropped : Prop :=
  (∀ s : State, s.statusWord.getLsbD 0 = true ↔ ∃ w snap q, s.phase = .busy w snap q) ∧
  ∀ (s : State) (w : Word) (rest : List Event), s.agenda = issueEvent w :: rest → s.rst = false →
    ∃ t, step s = .next t ∧ t.agenda = rest ∧ t.resp = some .writeDone ∧
      (s.busy = true → KeepsBlock { s with ovr := true } t) ∧
      (s.busy = false → KeepsBlock
        { s with
          cmdLast := w, done := false, err := false, errcode := 0,
          phase := .busy w { mem := s.mem, rounds := s.kgRounds, cap := s.searchCap } none } t)

/-- R67, R62: a write of `n` bytes at byte `j` of slot `i` writes them little-endian while idle, and is dropped with OVR
while busy. -/
def Obligations.SlotWriteLandsOrIsDropped : Prop :=
  ∀ (s : State) (i : Slot) (j n : Nat) (v : Word) (rest : List Event),
    (n = 1 ∨ n = 2 ∨ n = 4) → j % n = 0 → j < 512 → s.rst = false →
    s.agenda = .write (Config.base + (slotBase i + j)) n v :: rest →
    ∃ t, step s = .next t ∧ t.agenda = rest ∧ t.resp = some .writeDone ∧
      (s.busy = true → KeepsBlock { s with ovr := true } t) ∧
      (s.busy = false →
        (∀ k < n, t.mem.readByte (slotBase i + j + k) = v.extractLsb' (8 * k) 8) ∧
        (∀ a, (a < slotBase i + j ∨ slotBase i + j + n ≤ a) → t.mem.readByte a = s.mem.readByte a) ∧
        KeepsBlock { s with mem := t.mem } t)

/-- R66, R62: a read of `n` bytes at byte `j` of slot `i` returns bits 8j to 8(j+n)-1 of B[i] in every phase, while BUSY
those of the snapshot, and changes nothing. That the response holds 0 above a narrow read is the model's choice (log 7). -/
def Obligations.SlotReadReturnsItsBits : Prop :=
  ∀ (s : State) (i : Slot) (j n : Nat) (rest : List Event),
    (n = 1 ∨ n = 2 ∨ n = 4) → j % n = 0 → j < 512 → s.rst = false →
    s.agenda = .read (Config.base + (slotBase i + j)) n :: rest →
    ∃ t v, step s = .next t ∧ t.agenda = rest ∧ t.resp = some (.readData v) ∧
      v.toNat = s.mem.slot i / 2 ^ (8 * j) % 2 ^ (8 * n) ∧ KeepsBlock s t ∧
      ∀ w snap q, s.Inv → s.phase = .busy w snap q →
        v.toNat = snap.mem.slot i / 2 ^ (8 * j) % 2 ^ (8 * n)

/-- R68, R27 to R36: a read of a register returns its value, reserved bits 0, and changes nothing; the fields of STATUS
have the bits of R30. -/
def Obligations.RegisterReadsAreIdempotent : Prop :=
  (∀ s : State,
    s.statusWord.getLsbD 0 = s.busy ∧ s.statusWord.getLsbD 1 = s.done ∧ s.statusWord.getLsbD 2 = s.err ∧
    s.statusWord.getLsbD 3 = s.ovr ∧ s.statusWord.extractLsb' 4 4 = 0 ∧
    s.statusWord.extractLsb' 8 8 = s.errcode ∧ s.statusWord.extractLsb' 16 16 = 0) ∧
  ∀ (s : State) (r : Reg) (rest : List Event), s.agenda = rregEvent r :: rest → s.rst = false →
    ∃ t, step s = .next t ∧ t.agenda = rest ∧ KeepsBlock s t ∧
      t.resp = some (.readData (match r with
        | .id => 0x4D454531
        | .config => 0x00100008
        | .ctrl => if s.irqEn then 1 else 0
        | .status => s.statusWord
        | .cmd => s.cmdLast
        | .result => s.result
        | .kgRounds => s.kgRounds.zeroExtend 32
        | .searchCap => s.searchCap
        | .candidates => s.candidates))

/-- R64: an access that is misaligned, narrow below 0x1000, reserved or of a wrong size gets a bus error with data 0 and
changes no state of the block. That it is a bus error also while RST is asserted is the model's inference (log 6). -/
def Obligations.BadAccessesGetABusError : Prop :=
  ∀ (s : State) (off size : Nat) (v : Word) (rest : List Event), off < 0x2000 →
    ((Config.base + off) % size ≠ 0 ∨ (size ≠ 4 ∧ off < 0x1000) ∨ (0x24 ≤ off ∧ off ≤ 0xFFF) ∨
      (size ≠ 1 ∧ size ≠ 2 ∧ size ≠ 4)) →
    (s.agenda = .read (Config.base + off) size :: rest ∨ s.agenda = .write (Config.base + off) size v :: rest) →
    ∃ t, step s = .next t ∧ t.agenda = rest ∧ t.resp = some (.busError 0) ∧ KeepsBlock s t

/-- R60, R65: an access outside BASE to BASE + 0x1FFF changes nothing the block holds (the model's choice, log 5: the
response says that it is not the block's). -/
def Obligations.ForeignAccessesAreNotTheBlocks : Prop :=
  ∀ (s : State) (addr size : Nat) (v : Word) (rest : List Event),
    (addr < Config.base ∨ Config.base + 0x1FFF < addr) →
    (s.agenda = .read addr size :: rest ∨ s.agenda = .write addr size v :: rest) →
    ∃ t, step s = .next t ∧ t.agenda = rest ∧ t.resp = some .notMine ∧ KeepsBlock s t

/-- R30, R252: a write of STATUS clears DONE, ERR with ERRCODE, and OVR where it writes 1, and nothing else. -/
def Obligations.StatusWriteClearsWhatItNames : Prop :=
  ∀ (s : State) (v : Word) (rest : List Event), s.agenda = wregEvent .status v :: rest → s.rst = false →
    ∃ t, step s = .next t ∧ t.agenda = rest ∧ t.resp = some .writeDone ∧
      KeepsBlock
        { s with
          done := if v.getLsbD 1 then false else s.done
          err := if v.getLsbD 2 then false else s.err
          errcode := if v.getLsbD 2 then 0 else s.errcode
          ovr := if v.getLsbD 3 then false else s.ovr } t

/-- R36, R69: a write of ID, CONFIG, RESULT or CANDIDATES is ignored without a bus error. -/
def Obligations.ReadOnlyRegistersIgnoreWrites : Prop :=
  ∀ (s : State) (r : Reg) (v : Word) (rest : List Event),
    (r = .id ∨ r = .config ∨ r = .result ∨ r = .candidates) → s.agenda = wregEvent r v :: rest →
    ∃ t, step s = .next t ∧ t.agenda = rest ∧ t.resp = some .writeDone ∧ KeepsBlock s t

/-- R33, R34, R293: KG_ROUNDS and SEARCH_CAP take a write in either phase at once; a running command keeps its
snapshot. -/
def Obligations.ConfigurationWritesWaitForTheNextIssue : Prop :=
  ∀ (s : State) (v : Word) (rest : List Event), s.rst = false →
    (s.agenda = wregEvent .kgRounds v :: rest →
      ∃ t, step s = .next t ∧ t.agenda = rest ∧ t.resp = some .writeDone ∧ t.phase = s.phase ∧
        KeepsBlock { s with kgRounds := v.extractLsb' 0 16 } t) ∧
    (s.agenda = wregEvent .searchCap v :: rest →
      ∃ t, step s = .next t ∧ t.agenda = rest ∧ t.resp = some .writeDone ∧ t.phase = s.phase ∧
        KeepsBlock { s with searchCap := v } t)

/-- R29, R281: a write of CTRL with SRST = 1 performs exactly the state change of reset, whatever runs; else it stores
IRQ_EN. -/
def Obligations.CtrlWriteStoresOrResets : Prop :=
  ∀ (s : State) (v : Word) (rest : List Event), s.agenda = wregEvent .ctrl v :: rest → s.rst = false →
    ∃ t, step s = .next t ∧ t.agenda = rest ∧ t.resp = some .writeDone ∧
      (v.getLsbD 1 = true →
        t = { State.reset with resp := t.resp, agenda := t.agenda, entropy := s.entropy, burst := s.burst }) ∧
      (v.getLsbD 1 = false → KeepsBlock { s with irqEn := v.getLsbD 0 } t)

/-- R280: asserting RST puts the block in its reset state and abandons the running command; while it is asserted writes
have no effect and reads that get no bus error return 0. -/
def Obligations.ResetLineHoldsTheBlock : Prop :=
  (∀ (s : State) (rest : List Event), s.agenda = .rst true :: rest →
    ∃ t, step s = .next t ∧
      t = { State.reset with rst := true, resp := s.resp, agenda := rest, entropy := s.entropy, burst := s.burst }) ∧
  (∀ (s : State) (rest : List Event), s.rst = true → s.agenda = .rst false :: rest →
    ∃ t, step s = .next t ∧
      t = { State.reset with resp := s.resp, agenda := rest, entropy := s.entropy, burst := s.burst }) ∧
  (∀ (s : State) (off size : Nat) (v : Word) (rest : List Event), s.rst = true → off < 0x2000 →
    isBusError off size = false →
    (s.agenda = .write (Config.base + off) size v :: rest →
      ∃ t, step s = .next t ∧ t.agenda = rest ∧ KeepsBlock s t) ∧
    (s.agenda = .read (Config.base + off) size :: rest →
      ∃ t, step s = .next t ∧ t.agenda = rest ∧ t.resp = some (.readData 0) ∧ KeepsBlock s t))

/-! ## Whole-machine rules -/

/-- R40, R280: the reset values (`ID` and `CONFIG` are constants), and IRQ is 0. -/
def Obligations.ResetValuesAreTheSpecs : Prop :=
  State.reset.readReg .id = 0x4D454531 ∧ State.reset.readReg .config = 0x00100008 ∧
  State.reset.readReg .ctrl = 0 ∧
  (∀ i : Slot, State.reset.mem.slot i = 0) ∧ State.reset.irqEn = false ∧ State.reset.statusWord = 0 ∧
  State.reset.cmdLast = 0 ∧ State.reset.result = 0 ∧ State.reset.kgRounds = 0x0028 ∧
  State.reset.searchCap = 0x00100000 ∧ State.reset.candidates = 0 ∧ State.reset.phase = .idle ∧
  State.reset.irq = false

/-- The invariant holds at reset (R40). -/
def Obligations.ResetMeetsTheInvariant : Prop := State.reset.Inv

/-- R30, R66, R133, R242, R280: every step of host, engine or platform keeps the invariant. -/
def Obligations.StepKeepsTheInvariant : Prop :=
  ∀ s t : State, s.Inv → step s = .next t → t.Inv

/-- R22, R24, R67: while a command is running and stays running, no step changes a slot byte, RESULT or CANDIDATES, and the
snapshot and the running word stay. -/
def Obligations.NothingIsVisibleBeforeCompletion : Prop :=
  ∀ (s t : State) (w w' : Word) (snap snap' : Snapshot) (q q' : Option Search),
    s.phase = .busy w snap q → step s = .next t → t.phase = .busy w' snap' q' →
    KeepsBytes s t ∧ t.result = s.result ∧ t.candidates = s.candidates ∧ w' = w ∧ snap' = snap

/-- R30, R37, R39, R250, R252: IRQ is IRQ_EN AND DONE; a set DONE stays until the host writes 1 to it, writes CMD, resets by CTRL, or
RST resets the block. -/
def Obligations.DoneStaysUntilTheHostActs : Prop :=
  (∀ s : State, s.irq = (s.irqEn && s.done)) ∧
  ∀ s t : State, step s = .next t → s.done = true → t.done = false →
    ∃ rest, (∃ v size, s.agenda = .write (Config.base + Reg.status.offset) size v :: rest ∧ v.getLsbD 1 = true) ∨
      (∃ v size, s.agenda = .write (Config.base + Reg.cmd.offset) size v :: rest) ∨
      (∃ v size, s.agenda = .write (Config.base + Reg.ctrl.offset) size v :: rest ∧ v.getLsbD 1 = true) ∨
      ∃ level, s.agenda = .rst level :: rest

/-- R185: for a key triple of distinct primes, DECRYPT of ENCRYPT of m returns m, for every m below n. -/
def Obligations.DecryptUndoesEncrypt : Prop :=
  ∀ (p q n e d : Nat), p.Prime → q.Prime → p ≠ q → keyDerive p q = .ok n e d →
    ∀ (s₁ s₂ : State) (r₁ m₁ n₁ x₁ r₂ m₂ n₂ x₂ : Slot),
      s₁.src m₁ < n → s₁.src n₁ = n → s₁.src x₁ = e → s₂.src n₂ = n → s₂.src x₂ = d →
      ∃ t₁, exec (.cipher r₁ m₁ n₁ x₁) s₁ = .next t₁ ∧
        (s₂.src m₂ = t₁.mem.slot r₁ →
          ∃ t₂, exec (.cipher r₂ m₂ n₂ x₂) s₂ = .next t₂ ∧ t₂.DoneOk ∧ t₂.mem.slot r₂ = s₁.src m₁)

/-- R200, R201: an integer decodes to its low bytes, as many as its bit length fills, least significant first; decoding
then encoding returns every slot value; encoding then decoding returns the message exactly when it is empty or its last
byte is not 0x00. -/
def Obligations.CodecRoundTrips : Prop :=
  (∀ v : Nat, (decodeMessage v).length = (bitlen v + 7) / 8 ∧
    ∀ (i : Nat) (h : i < (decodeMessage v).length), (decodeMessage v)[i] = BitVec.ofNat 8 (v / 2 ^ (8 * i))) ∧
  (∀ v : Nat, v < 2 ^ 4096 → encodeMessage (decodeMessage v) = some v) ∧
  ∀ (msg : List Byte) (v : Nat), encodeMessage msg = some v →
    (decodeMessage v = msg ↔ msg = [] ∨ msg.getLast? ≠ some 0)
end

