-- ==== Sys2Proof/Laws/Arith.lean ====
section
/-! SUPPORT. What the loops of the arithmetic primitives compute, each said once. -/

namespace Sys2Proof.Machine

theorem bitlen_le_iff {v k : Nat} : bitlen v ≤ k ↔ v < 2 ^ k := by
  unfold bitlen
  split
  · subst_vars; simp
  · rename_i h
    rw [Nat.succ_le_iff, Nat.log2_lt h]

theorem lt_two_pow_bitlen (v : Nat) : v < 2 ^ bitlen v := bitlen_le_iff.1 le_rfl

/-- A value that is not 0 has its top bit at `bitlen v - 1`. -/
theorem two_pow_bitlen_le {v : Nat} (h : v ≠ 0) : 1 ≤ bitlen v ∧ 2 ^ (bitlen v - 1) ≤ v := by
  have h1 : 1 ≤ bitlen v := by
    by_contra hc
    exact h (by simpa using bitlen_le_iff.1 (Nat.lt_one_iff.1 (not_le.1 hc)).le)
  refine ⟨h1, not_lt.1 fun hc => ?_⟩
  have := bitlen_le_iff.2 hc
  omega

theorem bitlen_mono {a b : Nat} (h : a ≤ b) : bitlen a ≤ bitlen b :=
  bitlen_le_iff.2 (h.trans_lt (lt_two_pow_bitlen b))

/-- Square-and-multiply, with any fuel that covers the exponent, keeps `r t^x` modulo m (R4). -/
theorem modExpLoop_modEq {m k r t x : Nat} (h : x < 2 ^ k) : modExpLoop m k r t x ≡ r * t ^ x [MOD m] := by
  induction k generalizing r t x with
  | zero =>
    obtain rfl : x = 0 := by simpa using h
    simp only [modExpLoop, pow_zero, mul_one]
    exact Nat.ModEq.refl _
  | succ k ih =>
    rw [modExpLoop]
    split
    · subst_vars
      simp only [pow_zero, mul_one]
      exact Nat.ModEq.refl _
    · have hx : x / 2 < 2 ^ k := by rw [pow_succ] at h; omega
      refine (ih hx).trans ?_
      have hsq : (t * t % m) ^ (x / 2) ≡ t ^ (2 * (x / 2)) [MOD m] := by
        rw [pow_mul, pow_two]
        exact (Nat.mod_modEq _ _).pow _
      split
      · rename_i hodd
        have hx2 : x = 2 * (x / 2) + 1 := by omega
        have : r * t ^ x = r * t * t ^ (2 * (x / 2)) := by
          conv_lhs => rw [hx2, pow_succ]
          ring
        rw [this]
        exact (Nat.mod_modEq _ _).mul hsq
      · have hx2 : x = 2 * (x / 2) := by omega
        conv_rhs => rw [hx2]
        exact Nat.ModEq.rfl.mul hsq

theorem modExpLoop_lt {m k r t x : Nat} (hm : 0 < m) (hr : r < m) : modExpLoop m k r t x < m := by
  induction k generalizing r t x with
  | zero => exact hr
  | succ k ih =>
    rw [modExpLoop]
    split
    · exact hr
    · apply ih
      split
      · exact Nat.mod_lt _ hm
      · exact hr

theorem modExpFn_lt {b x m : Nat} (hm : 0 < m) : modExpFn b x m < m := modExpLoop_lt hm (Nat.mod_lt _ hm)

/-- One step of the extended Euclidean loop keeps each t times a congruent to its r. -/
theorem invLoop_step {m a r0 t0 r1 t1 : Nat} (hm : 0 < m) (h0 : t0 * a ≡ r0 [MOD m]) (h1 : t1 * a ≡ r1 [MOD m]) :
    (t0 + (m - r0 / r1 * t1 % m)) % m * a ≡ r0 % r1 [MOD m] := by
  rw [← ZMod.natCast_eq_natCast_iff] at h0 h1 ⊢
  have hle : r0 / r1 * t1 % m ≤ m := (Nat.mod_lt _ hm).le
  have hq : (r0 : ZMod m) = (r1 : ZMod m) * (r0 / r1 : Nat) + (r0 % r1 : Nat) := by
    exact_mod_cast congrArg (Nat.cast (R := ZMod m)) (Nat.div_add_mod r0 r1).symm
  push_cast [Nat.cast_sub hle, ZMod.natCast_mod, ZMod.natCast_self] at h0 h1 hq ⊢
  linear_combination h0 - ((r0 / r1 : Nat) : ZMod m) * h1 + hq

/-- The extended Euclidean loop ends at the gcd: its answer times a is the gcd of the two r, modulo m. -/
theorem invLoop_modEq {m a k r0 t0 r1 t1 : Nat} (hm : 0 < m) (hlt : r1 ≤ r0) (hk : bitlen r0 + bitlen r1 < k)
    (h0 : t0 * a ≡ r0 [MOD m]) (h1 : t1 * a ≡ r1 [MOD m]) :
    invLoop m k r0 t0 r1 t1 * a ≡ Nat.gcd r0 r1 [MOD m] := by
  induction k generalizing r0 t0 r1 t1 with
  | zero => omega
  | succ k ih =>
    rw [invLoop]
    split
    · subst_vars
      simpa using h0
    · rename_i hr
      have hpos : 0 < r1 := Nat.pos_of_ne_zero hr
      have hhalf : 2 * (r0 % r1) < r0 + 1 := by
        have := Nat.mod_lt r0 hpos
        have := Nat.div_add_mod r0 r1
        have : r1 * 1 ≤ r1 * (r0 / r1) := Nat.mul_le_mul_left _ (Nat.div_pos hlt hpos)
        omega
      have hdec : bitlen (r0 % r1) + 1 ≤ bitlen r0 := by
        have hb := lt_two_pow_bitlen r0
        have : bitlen r0 ≠ 0 := fun e => by rw [e] at hb; omega
        obtain ⟨j, hj⟩ := Nat.exists_eq_succ_of_ne_zero this
        rw [hj, Nat.succ_eq_add_one, pow_succ] at hb
        have := (bitlen_le_iff (v := r0 % r1) (k := j)).2 (by omega)
        omega
      have hg : Nat.gcd r0 r1 = Nat.gcd r1 (r0 % r1) := by rw [Nat.gcd_comm, Nat.gcd_rec, Nat.gcd_comm]
      rw [hg]
      exact ih (Nat.mod_lt _ hpos).le (by omega) h1 (invLoop_step hm h0 h1)

theorem invLoop_lt {m k r0 t0 r1 t1 : Nat} (hm : 0 < m) (h0 : t0 < m) (h1 : t1 < m) :
    invLoop m k r0 t0 r1 t1 < m := by
  induction k generalizing r0 t0 r1 t1 with
  | zero => exact h0
  | succ k ih =>
    rw [invLoop]
    split
    · exact h0
    · exact ih h1 (Nat.mod_lt _ hm)

theorem invFn_lt {a m : Nat} (hm : 0 < m) : invFn a m < m := invLoop_lt hm hm (Nat.mod_lt _ hm)

theorem invFn_mul_modEq {a m : Nat} (hm : 0 < m) : invFn a m * a ≡ Nat.gcd m (a % m) [MOD m] := by
  refine invLoop_modEq hm (Nat.mod_lt _ hm).le (by omega) ?_ ?_
  · simpa using (Nat.modEq_zero_iff_dvd.2 (dvd_refl m)).symm
  · have : 1 % m * a ≡ 1 * a [MOD m] := (Nat.mod_modEq 1 m).mul_right a
    rw [one_mul] at this
    exact this.trans (Nat.mod_modEq a m).symm

end Sys2Proof.Machine
end

