-- ==== Sys2Proof/Laws/Memory.lean ====
section
/-! SUPPORT. The laws of operand memory: a read after a write to the same place, a write leaves every other place
alone, and every memory operation keeps the canonical form. -/

namespace Sys2Proof.Machine

/-! ## One byte -/

@[simp] theorem Memory.readByte_nil (a : Nat) : Memory.readByte [] a = 0 := rfl

theorem lookup_cell (a : Nat) (c : Host.Cell) (m : Memory) :
    List.lookup a (c :: m) = if a = c.1 then some c.2 else List.lookup a m := by
  obtain ⟨b, v⟩ := c
  by_cases h : a = b
  · simp [h]
  · have hb : (a == b) = false := by simpa using h
    simp [List.lookup_cons, h, hb]

theorem lookup_append_of_not_mem {m m' : Memory} {a : Nat} (h : ∀ c ∈ m, c.1 ≠ a) :
    (m ++ m').lookup a = m'.lookup a := by
  induction m with
  | nil => rfl
  | cons c m ih =>
    rw [List.cons_append, lookup_cell, if_neg fun e => h c (by simp) e.symm]
    exact ih fun d hd => h d (by simp [hd])

theorem lookup_append_of_not_mem_right {m m' : Memory} {a : Nat} (h : ∀ c ∈ m', c.1 ≠ a) :
    (m ++ m').lookup a = m.lookup a := by
  induction m with
  | nil => rw [List.nil_append, ← List.append_nil m', lookup_append_of_not_mem h]
  | cons c m ih => rw [List.cons_append, lookup_cell, lookup_cell, ih]

theorem lookup_filter_of_pos {m : Memory} {p : Nat → Bool} {a : Nat} (h : p a = true) :
    (m.filter (fun c => p c.1)).lookup a = m.lookup a := by
  induction m with
  | nil => rfl
  | cons c m ih =>
    by_cases hp : p c.1
    · simp only [List.filter_cons, hp, if_true, lookup_cell, ih]
    · simp only [List.filter_cons, hp, Bool.false_eq_true, if_false, lookup_cell, ih,
        if_neg (fun e : a = c.1 => hp (e ▸ h))]

theorem cellsOf_offsets {a n v : Nat} : ∀ c ∈ cellsOf a n v, a ≤ c.1 ∧ c.1 < a + n := by
  induction n generalizing a v with
  | zero => simp [cellsOf]
  | succ n ih =>
    intro c hc
    simp only [cellsOf] at hc
    split at hc
    · have := ih c hc
      omega
    · rcases List.mem_cons.1 hc with rfl | hc
      · simp
      · have := ih c hc
        omega

/-- Byte `k` of the cells of `v` is bits 8k to 8k+7 of `v` (R62). -/
theorem readByte_cellsOf {a n v k : Nat} (hk : k < n) :
    Memory.readByte (cellsOf a n v) (a + k) = BitVec.ofNat 8 (v / 256 ^ k) := by
  induction n generalizing a v k with
  | zero => omega
  | succ n ih =>
    cases k with
    | zero =>
      simp only [cellsOf]
      split
      · rename_i h
        have hno : ∀ c ∈ cellsOf (a + 1) n (v / 256), c.1 ≠ a + 0 := fun c hc => by
          have := cellsOf_offsets c hc
          omega
        have := lookup_append_of_not_mem (m' := []) hno
        rw [List.append_nil] at this
        simp only [Memory.readByte, this, List.lookup_nil, Option.getD_none]
        apply BitVec.eq_of_toNat_eq
        simp [h]
      · simp [Memory.readByte]
    | succ k =>
      have hstep : v / 256 ^ (k + 1) = v / 256 / 256 ^ k := by
        rw [Nat.div_div_eq_div_mul, pow_succ']
      have hk' : k < n := by omega
      have := ih (a := a + 1) (v := v / 256) hk'
      rw [show a + (k + 1) = a + 1 + k by omega, hstep, ← this]
      simp only [cellsOf]
      split
      · rfl
      · rw [Memory.readByte, Memory.readByte, lookup_cell, if_neg (by omega)]

/-- Inside the bytes written, a read gives the byte written. -/
theorem Memory.readByte_write_inside {m : Memory} {a n v k : Nat} (hk : k < n) :
    (m.write a n v).readByte (a + k) = BitVec.ofNat 8 (v / 256 ^ k) := by
  have h1 : ∀ c ∈ m.filter (fun c => decide (c.1 < a)), c.1 ≠ a + k := fun c hc => by
    have := (List.mem_filter.1 hc).2
    simp at this
    omega
  have h2 : ∀ c ∈ m.filter (fun c => decide (a + n ≤ c.1)), c.1 ≠ a + k := fun c hc => by
    have := (List.mem_filter.1 hc).2
    simp at this
    omega
  rw [Memory.readByte, Memory.write, List.append_assoc, lookup_append_of_not_mem h1,
    lookup_append_of_not_mem_right h2]
  exact readByte_cellsOf hk

/-- Outside the bytes written, a write changes nothing. -/
theorem Memory.readByte_write_outside {m : Memory} {a n v b : Nat} (hb : b < a ∨ a + n ≤ b) :
    (m.write a n v).readByte b = m.readByte b := by
  have hc : ∀ c ∈ cellsOf a n v, c.1 ≠ b := fun c hc => by
    have := cellsOf_offsets c hc
    omega
  unfold Memory.readByte Memory.write
  rcases hb with hb | hb
  · have h2 : ∀ c ∈ cellsOf a n v ++ m.filter (fun c => decide (a + n ≤ c.1)), c.1 ≠ b := fun c h => by
      rcases List.mem_append.1 h with h | h
      · exact hc c h
      · have := (List.mem_filter.1 h).2
        simp at this
        omega
    rw [List.append_assoc, lookup_append_of_not_mem_right h2,
      lookup_filter_of_pos (p := fun x => decide (x < a)) (by simpa using hb)]
  · have h1 : ∀ c ∈ m.filter (fun c => decide (c.1 < a)) ++ cellsOf a n v, c.1 ≠ b := fun c h => by
      rcases List.mem_append.1 h with h | h
      · have := (List.mem_filter.1 h).2
        simp at this
        omega
      · exact hc c h
    rw [lookup_append_of_not_mem h1,
      lookup_filter_of_pos (p := fun x => decide (a + n ≤ x)) (by simpa using hb)]

/-! ## Little-endian values -/

theorem Memory.readLE_lt (m : Memory) (a n : Nat) : m.readLE a n < 256 ^ n := by
  induction n generalizing a with
  | zero => simp [Memory.readLE]
  | succ n ih =>
    have h1 := ih (a + 1)
    have h2 := (m.readByte a).isLt
    rw [Memory.readLE, pow_succ]
    omega

theorem Memory.readLE_congr {m m' : Memory} {a n : Nat} (h : ∀ k < n, m.readByte (a + k) = m'.readByte (a + k)) :
    m.readLE a n = m'.readLE a n := by
  induction n generalizing a with
  | zero => rfl
  | succ n ih =>
    have h0 := h 0 (by omega)
    rw [Nat.add_zero] at h0
    rw [Memory.readLE, Memory.readLE, h0, ih fun k hk => by
      have := h (k + 1) (by omega)
      rwa [show a + 1 + k = a + (k + 1) by omega]]

/-- Bytes that are those of `v` read back as `v` modulo `256^n`. -/
theorem Memory.readLE_of_bytes {m : Memory} {a n v : Nat}
    (h : ∀ k < n, m.readByte (a + k) = BitVec.ofNat 8 (v / 256 ^ k)) : m.readLE a n = v % 256 ^ n := by
  induction n generalizing a v with
  | zero => simp [Memory.readLE, Nat.mod_one]
  | succ n ih =>
    have h0 := h 0 (by omega)
    rw [Nat.add_zero, pow_zero, Nat.div_one] at h0
    have ht := ih (a := a + 1) (v := v / 256) fun k hk => by
      have := h (k + 1) (by omega)
      rwa [show a + 1 + k = a + (k + 1) by omega, Nat.div_div_eq_div_mul, ← pow_succ']
    rw [Memory.readLE, h0, ht, BitVec.toNat_ofNat, pow_succ' 256 n, Nat.mod_mul (a := 256) (b := 256 ^ n)]

theorem Memory.readLE_write_same (m : Memory) (a n v : Nat) : (m.write a n v).readLE a n = v % 256 ^ n :=
  Memory.readLE_of_bytes fun _ hk => Memory.readByte_write_inside hk

theorem Memory.readLE_write_disjoint {m : Memory} {a n v b k : Nat} (h : b + k ≤ a ∨ a + n ≤ b) :
    (m.write a n v).readLE b k = m.readLE b k :=
  Memory.readLE_congr fun j hj => Memory.readByte_write_outside (by omega)

/-- The bytes in the middle of a wide read (R62). -/
theorem Memory.readLE_slice (m : Memory) {a n j k : Nat} (h : j + k ≤ n) :
    m.readLE (a + j) k = m.readLE a n / 256 ^ j % 256 ^ k := by
  induction j generalizing a n with
  | zero =>
    simp only [Nat.add_zero, pow_zero, Nat.div_one]
    symm
    induction k generalizing a n with
    | zero => simp [Memory.readLE, Nat.mod_one]
    | succ k ih =>
      obtain ⟨n, rfl⟩ := Nat.exists_eq_succ_of_ne_zero (show n ≠ 0 by omega)
      simp only [Memory.readLE]
      have := (m.readByte a).isLt
      rw [← ih (a := a + 1) (n := n) (by omega), pow_succ, Nat.mul_comm (256 ^ k), Nat.mod_mul,
        Nat.add_mul_div_left _ _ (by norm_num), Nat.add_mul_mod_self_left, Nat.div_eq_of_lt (by omega), Nat.zero_add,
        Nat.mod_eq_of_lt (by omega)]
  | succ j ih =>
    obtain ⟨n, rfl⟩ := Nat.exists_eq_succ_of_ne_zero (show n ≠ 0 by omega)
    have := (m.readByte a).isLt
    rw [show a + (j + 1) = (a + 1) + j by omega, ih (a := a + 1) (n := n) (by omega)]
    simp only [Memory.readLE]
    rw [pow_succ, Nat.mul_comm (256 ^ j), ← Nat.div_div_eq_div_mul, Nat.add_mul_div_left _ _ (by norm_num),
      Nat.div_eq_of_lt (show (m.readByte a).toNat < 256 by omega), Nat.zero_add]

/-! ## Slots -/

theorem slotBase_disjoint {i j : Slot} (h : i ≠ j) :
    slotBase i + Config.slotBytes ≤ slotBase j ∨ slotBase j + Config.slotBytes ≤ slotBase i := by
  have : i.val ≠ j.val := fun e => h (Fin.ext e)
  simp only [slotBase, Config.slotsOffset, Config.slotBytes]
  omega

theorem slotBase_bounds (i : Slot) : 0x1000 ≤ slotBase i ∧ slotBase i + Config.slotBytes ≤ 0x2000 := by
  have := i.isLt
  simp only [slotBase, Config.slotsOffset, Config.slotBytes]
  omega

theorem slotBytes_pow : 256 ^ Config.slotBytes = 2 ^ Config.maxBits := by
  rw [show (256 : Nat) = 2 ^ 8 by norm_num, ← pow_mul]
  exact congrArg (fun k => 2 ^ k) rfl

/-- Every slot value is below 2^4096 (R3, R21). -/
theorem Memory.slot_lt (m : Memory) (i : Slot) : m.slot i < 2 ^ Config.maxBits := by
  rw [← slotBytes_pow]
  exact m.readLE_lt _ _

theorem Memory.slot_writeSlot_same (m : Memory) (i : Slot) (v : Nat) :
    (m.writeSlot i v).slot i = v % 2 ^ Config.maxBits := by
  rw [← slotBytes_pow]
  exact m.readLE_write_same _ _ _

/-- A slot holds the value written (R3). -/
theorem Memory.slot_writeSlot_of_lt {m : Memory} {i : Slot} {v : Nat} (h : v < 2 ^ Config.maxBits) :
    (m.writeSlot i v).slot i = v := by rw [m.slot_writeSlot_same, Nat.mod_eq_of_lt h]

theorem Memory.slot_writeSlot_other {m : Memory} {i j : Slot} {v : Nat} (h : i ≠ j) :
    (m.writeSlot i v).slot j = m.slot j :=
  Memory.readLE_write_disjoint (slotBase_disjoint h).symm

theorem Memory.readByte_writeSlot_outside {m : Memory} {i : Slot} {v a : Nat}
    (h : ¬ (slotBase i ≤ a ∧ a < slotBase i + Config.slotBytes)) :
    (m.writeSlot i v).readByte a = m.readByte a :=
  Memory.readByte_write_outside (by omega)

@[simp] theorem Memory.commit_nil (m : Memory) : m.commit [] = m := rfl

@[simp] theorem Memory.commit_cons (m : Memory) (w : Slot × Nat) (ws : List (Slot × Nat)) :
    m.commit (w :: ws) = (m.writeSlot w.1 w.2).commit ws := rfl

/-! ## The canonical form -/

theorem Memory.wf_iff {m : Memory} : m.wf = true ↔
    m.Pairwise (fun c d => c.1 < d.1) ∧ ∀ c ∈ m, c.2 ≠ 0 ∧ 0x1000 ≤ c.1 ∧ c.1 < 0x2000 := by
  simp only [Memory.wf, Bool.and_eq_true, decide_eq_true_eq, List.all_eq_true, and_assoc]
  exact Iff.rfl

theorem Memory.wf_nil : Memory.wf [] = true := rfl

theorem cellsOf_rising (a n v : Nat) : (cellsOf a n v).Pairwise (fun c d => c.1 < d.1) := by
  induction n generalizing a v with
  | zero => simp [cellsOf]
  | succ n ih =>
    simp only [cellsOf]
    split
    · exact ih _ _
    · refine List.pairwise_cons.2 ⟨fun c hc => ?_, ih _ _⟩
      have := cellsOf_offsets c hc
      dsimp only
      omega

theorem cellsOf_ne_zero {a n v : Nat} : ∀ c ∈ cellsOf a n v, c.2 ≠ 0 := by
  induction n generalizing a v with
  | zero => simp [cellsOf]
  | succ n ih =>
    intro c hc
    simp only [cellsOf] at hc
    split at hc
    · exact ih c hc
    · rename_i h
      rcases List.mem_cons.1 hc with rfl | hc
      · intro e
        have := congrArg BitVec.toNat e
        simp at this
        omega
      · exact ih c hc

/-- A write inside operand memory keeps the canonical form. -/
theorem Memory.wf_write {m : Memory} {a n v : Nat} (h : m.wf = true) (ha : 0x1000 ≤ a) (hn : a + n ≤ 0x2000) :
    (m.write a n v).wf = true := by
  obtain ⟨hp, hc⟩ := Memory.wf_iff.1 h
  refine Memory.wf_iff.2 ⟨?_, ?_⟩
  · simp only [Memory.write, List.append_assoc, List.pairwise_append]
    refine ⟨hp.filter _, ⟨cellsOf_rising _ _ _, hp.filter _, fun c hc d hd => ?_⟩, fun c hc d hd => ?_⟩
    · have h1 := cellsOf_offsets c hc
      have h2 := (List.mem_filter.1 hd).2
      simp at h2
      omega
    · have h1 := (List.mem_filter.1 hc).2
      simp at h1
      rcases List.mem_append.1 hd with hd | hd
      · have h2 := cellsOf_offsets d hd
        omega
      · have h2 := (List.mem_filter.1 hd).2
        simp at h2
        omega
  · intro c hc'
    simp only [Memory.write, List.mem_append] at hc'
    rcases hc' with (hc' | hc') | hc'
    · exact hc c (List.mem_filter.1 hc').1
    · have := cellsOf_offsets c hc'
      exact ⟨cellsOf_ne_zero c hc', by omega, by omega⟩
    · exact hc c (List.mem_filter.1 hc').1

theorem Memory.wf_writeSlot {m : Memory} {i : Slot} {v : Nat} (h : m.wf = true) : (m.writeSlot i v).wf = true :=
  Memory.wf_write h (slotBase_bounds i).1 (slotBase_bounds i).2

theorem Memory.wf_commit {m : Memory} {ws : List (Slot × Nat)} (h : m.wf = true) : (m.commit ws).wf = true := by
  induction ws generalizing m with
  | nil => exact h
  | cons w ws ih => exact ih (Memory.wf_writeSlot h)

end Sys2Proof.Machine
end

