-- ==== Sys2Proof/Laws/State.lean ====
section
/-! SUPPORT. One lemma per field of State and named update, each true by rfl and tagged simp: what an update writes and
that it writes nothing else. -/

namespace Sys2Proof.Machine.State

/-! ## Issue -/

@[simp] theorem issue_mem (s : State) (w : Word) :
    (s.issue w).mem = s.mem := rfl
@[simp] theorem issue_irqEn (s : State) (w : Word) :
    (s.issue w).irqEn = s.irqEn := rfl
@[simp] theorem issue_done (s : State) (w : Word) :
    (s.issue w).done = false := rfl
@[simp] theorem issue_err (s : State) (w : Word) :
    (s.issue w).err = false := rfl
@[simp] theorem issue_ovr (s : State) (w : Word) :
    (s.issue w).ovr = s.ovr := rfl
@[simp] theorem issue_errcode (s : State) (w : Word) :
    (s.issue w).errcode = 0 := rfl
@[simp] theorem issue_cmdLast (s : State) (w : Word) :
    (s.issue w).cmdLast = w := rfl
@[simp] theorem issue_result (s : State) (w : Word) :
    (s.issue w).result = s.result := rfl
@[simp] theorem issue_kgRounds (s : State) (w : Word) :
    (s.issue w).kgRounds = s.kgRounds := rfl
@[simp] theorem issue_searchCap (s : State) (w : Word) :
    (s.issue w).searchCap = s.searchCap := rfl
@[simp] theorem issue_candidates (s : State) (w : Word) :
    (s.issue w).candidates = s.candidates := rfl
@[simp] theorem issue_phase (s : State) (w : Word) :
    (s.issue w).phase = .busy w s.takeSnapshot none := rfl
@[simp] theorem issue_rst (s : State) (w : Word) :
    (s.issue w).rst = s.rst := rfl
@[simp] theorem issue_resp (s : State) (w : Word) :
    (s.issue w).resp = s.resp := rfl
@[simp] theorem issue_entropy (s : State) (w : Word) :
    (s.issue w).entropy = s.entropy := rfl
@[simp] theorem issue_burst (s : State) (w : Word) :
    (s.issue w).burst = s.burst := rfl
@[simp] theorem issue_agenda (s : State) (w : Word) :
    (s.issue w).agenda = s.agenda := rfl

/-! ## The OVR mark -/

@[simp] theorem setOvr_mem (s : State) :
    (s.setOvr).mem = s.mem := rfl
@[simp] theorem setOvr_irqEn (s : State) :
    (s.setOvr).irqEn = s.irqEn := rfl
@[simp] theorem setOvr_done (s : State) :
    (s.setOvr).done = s.done := rfl
@[simp] theorem setOvr_err (s : State) :
    (s.setOvr).err = s.err := rfl
@[simp] theorem setOvr_ovr (s : State) :
    (s.setOvr).ovr = true := rfl
@[simp] theorem setOvr_errcode (s : State) :
    (s.setOvr).errcode = s.errcode := rfl
@[simp] theorem setOvr_cmdLast (s : State) :
    (s.setOvr).cmdLast = s.cmdLast := rfl
@[simp] theorem setOvr_result (s : State) :
    (s.setOvr).result = s.result := rfl
@[simp] theorem setOvr_kgRounds (s : State) :
    (s.setOvr).kgRounds = s.kgRounds := rfl
@[simp] theorem setOvr_searchCap (s : State) :
    (s.setOvr).searchCap = s.searchCap := rfl
@[simp] theorem setOvr_candidates (s : State) :
    (s.setOvr).candidates = s.candidates := rfl
@[simp] theorem setOvr_phase (s : State) :
    (s.setOvr).phase = s.phase := rfl
@[simp] theorem setOvr_rst (s : State) :
    (s.setOvr).rst = s.rst := rfl
@[simp] theorem setOvr_resp (s : State) :
    (s.setOvr).resp = s.resp := rfl
@[simp] theorem setOvr_entropy (s : State) :
    (s.setOvr).entropy = s.entropy := rfl
@[simp] theorem setOvr_burst (s : State) :
    (s.setOvr).burst = s.burst := rfl
@[simp] theorem setOvr_agenda (s : State) :
    (s.setOvr).agenda = s.agenda := rfl

/-! ## Completion without an error -/

@[simp] theorem completeOk_mem (s : State) (ws : List (Slot × Nat)) (r c : Option Word) :
    (s.completeOk ws r c).mem = s.mem.commit ws := rfl
@[simp] theorem completeOk_irqEn (s : State) (ws : List (Slot × Nat)) (r c : Option Word) :
    (s.completeOk ws r c).irqEn = s.irqEn := rfl
@[simp] theorem completeOk_done (s : State) (ws : List (Slot × Nat)) (r c : Option Word) :
    (s.completeOk ws r c).done = true := rfl
@[simp] theorem completeOk_err (s : State) (ws : List (Slot × Nat)) (r c : Option Word) :
    (s.completeOk ws r c).err = false := rfl
@[simp] theorem completeOk_ovr (s : State) (ws : List (Slot × Nat)) (r c : Option Word) :
    (s.completeOk ws r c).ovr = s.ovr := rfl
@[simp] theorem completeOk_errcode (s : State) (ws : List (Slot × Nat)) (r c : Option Word) :
    (s.completeOk ws r c).errcode = 0 := rfl
@[simp] theorem completeOk_cmdLast (s : State) (ws : List (Slot × Nat)) (r c : Option Word) :
    (s.completeOk ws r c).cmdLast = s.cmdLast := rfl
@[simp] theorem completeOk_result (s : State) (ws : List (Slot × Nat)) (r c : Option Word) :
    (s.completeOk ws r c).result = r.getD s.result := rfl
@[simp] theorem completeOk_kgRounds (s : State) (ws : List (Slot × Nat)) (r c : Option Word) :
    (s.completeOk ws r c).kgRounds = s.kgRounds := rfl
@[simp] theorem completeOk_searchCap (s : State) (ws : List (Slot × Nat)) (r c : Option Word) :
    (s.completeOk ws r c).searchCap = s.searchCap := rfl
@[simp] theorem completeOk_candidates (s : State) (ws : List (Slot × Nat)) (r c : Option Word) :
    (s.completeOk ws r c).candidates = c.getD s.candidates := rfl
@[simp] theorem completeOk_phase (s : State) (ws : List (Slot × Nat)) (r c : Option Word) :
    (s.completeOk ws r c).phase = .idle := rfl
@[simp] theorem completeOk_rst (s : State) (ws : List (Slot × Nat)) (r c : Option Word) :
    (s.completeOk ws r c).rst = s.rst := rfl
@[simp] theorem completeOk_resp (s : State) (ws : List (Slot × Nat)) (r c : Option Word) :
    (s.completeOk ws r c).resp = s.resp := rfl
@[simp] theorem completeOk_entropy (s : State) (ws : List (Slot × Nat)) (r c : Option Word) :
    (s.completeOk ws r c).entropy = s.entropy := rfl
@[simp] theorem completeOk_burst (s : State) (ws : List (Slot × Nat)) (r c : Option Word) :
    (s.completeOk ws r c).burst = s.burst := rfl
@[simp] theorem completeOk_agenda (s : State) (ws : List (Slot × Nat)) (r c : Option Word) :
    (s.completeOk ws r c).agenda = s.agenda := rfl

/-! ## Completion with an error -/

@[simp] theorem raise_mem (s : State) (k : ErrKind) (c : Option Word) :
    (s.raise k c).mem = s.mem := rfl
@[simp] theorem raise_irqEn (s : State) (k : ErrKind) (c : Option Word) :
    (s.raise k c).irqEn = s.irqEn := rfl
@[simp] theorem raise_done (s : State) (k : ErrKind) (c : Option Word) :
    (s.raise k c).done = true := rfl
@[simp] theorem raise_err (s : State) (k : ErrKind) (c : Option Word) :
    (s.raise k c).err = true := rfl
@[simp] theorem raise_ovr (s : State) (k : ErrKind) (c : Option Word) :
    (s.raise k c).ovr = s.ovr := rfl
@[simp] theorem raise_errcode (s : State) (k : ErrKind) (c : Option Word) :
    (s.raise k c).errcode = k.code := rfl
@[simp] theorem raise_cmdLast (s : State) (k : ErrKind) (c : Option Word) :
    (s.raise k c).cmdLast = s.cmdLast := rfl
@[simp] theorem raise_result (s : State) (k : ErrKind) (c : Option Word) :
    (s.raise k c).result = s.result := rfl
@[simp] theorem raise_kgRounds (s : State) (k : ErrKind) (c : Option Word) :
    (s.raise k c).kgRounds = s.kgRounds := rfl
@[simp] theorem raise_searchCap (s : State) (k : ErrKind) (c : Option Word) :
    (s.raise k c).searchCap = s.searchCap := rfl
@[simp] theorem raise_candidates (s : State) (k : ErrKind) (c : Option Word) :
    (s.raise k c).candidates = c.getD s.candidates := rfl
@[simp] theorem raise_phase (s : State) (k : ErrKind) (c : Option Word) :
    (s.raise k c).phase = .idle := rfl
@[simp] theorem raise_rst (s : State) (k : ErrKind) (c : Option Word) :
    (s.raise k c).rst = s.rst := rfl
@[simp] theorem raise_resp (s : State) (k : ErrKind) (c : Option Word) :
    (s.raise k c).resp = s.resp := rfl
@[simp] theorem raise_entropy (s : State) (k : ErrKind) (c : Option Word) :
    (s.raise k c).entropy = s.entropy := rfl
@[simp] theorem raise_burst (s : State) (k : ErrKind) (c : Option Word) :
    (s.raise k c).burst = s.burst := rfl
@[simp] theorem raise_agenda (s : State) (k : ErrKind) (c : Option Word) :
    (s.raise k c).agenda = s.agenda := rfl

/-! ## Write-1-to-clear of STATUS -/

@[simp] theorem writeStatus_mem (s : State) (v : Word) :
    (s.writeStatus v).mem = s.mem := rfl
@[simp] theorem writeStatus_irqEn (s : State) (v : Word) :
    (s.writeStatus v).irqEn = s.irqEn := rfl
@[simp] theorem writeStatus_done (s : State) (v : Word) :
    (s.writeStatus v).done = (s.done && !v.getLsbD 1) := rfl
@[simp] theorem writeStatus_err (s : State) (v : Word) :
    (s.writeStatus v).err = (s.err && !v.getLsbD 2) := rfl
@[simp] theorem writeStatus_ovr (s : State) (v : Word) :
    (s.writeStatus v).ovr = (s.ovr && !v.getLsbD 3) := rfl
@[simp] theorem writeStatus_errcode (s : State) (v : Word) :
    (s.writeStatus v).errcode = if v.getLsbD 2 then 0 else s.errcode := rfl
@[simp] theorem writeStatus_cmdLast (s : State) (v : Word) :
    (s.writeStatus v).cmdLast = s.cmdLast := rfl
@[simp] theorem writeStatus_result (s : State) (v : Word) :
    (s.writeStatus v).result = s.result := rfl
@[simp] theorem writeStatus_kgRounds (s : State) (v : Word) :
    (s.writeStatus v).kgRounds = s.kgRounds := rfl
@[simp] theorem writeStatus_searchCap (s : State) (v : Word) :
    (s.writeStatus v).searchCap = s.searchCap := rfl
@[simp] theorem writeStatus_candidates (s : State) (v : Word) :
    (s.writeStatus v).candidates = s.candidates := rfl
@[simp] theorem writeStatus_phase (s : State) (v : Word) :
    (s.writeStatus v).phase = s.phase := rfl
@[simp] theorem writeStatus_rst (s : State) (v : Word) :
    (s.writeStatus v).rst = s.rst := rfl
@[simp] theorem writeStatus_resp (s : State) (v : Word) :
    (s.writeStatus v).resp = s.resp := rfl
@[simp] theorem writeStatus_entropy (s : State) (v : Word) :
    (s.writeStatus v).entropy = s.entropy := rfl
@[simp] theorem writeStatus_burst (s : State) (v : Word) :
    (s.writeStatus v).burst = s.burst := rfl
@[simp] theorem writeStatus_agenda (s : State) (v : Word) :
    (s.writeStatus v).agenda = s.agenda := rfl

/-! ## Consumed draws -/

@[simp] theorem withEntropy_mem (s : State) (e : Entropy) :
    (s.withEntropy e).mem = s.mem := rfl
@[simp] theorem withEntropy_irqEn (s : State) (e : Entropy) :
    (s.withEntropy e).irqEn = s.irqEn := rfl
@[simp] theorem withEntropy_done (s : State) (e : Entropy) :
    (s.withEntropy e).done = s.done := rfl
@[simp] theorem withEntropy_err (s : State) (e : Entropy) :
    (s.withEntropy e).err = s.err := rfl
@[simp] theorem withEntropy_ovr (s : State) (e : Entropy) :
    (s.withEntropy e).ovr = s.ovr := rfl
@[simp] theorem withEntropy_errcode (s : State) (e : Entropy) :
    (s.withEntropy e).errcode = s.errcode := rfl
@[simp] theorem withEntropy_cmdLast (s : State) (e : Entropy) :
    (s.withEntropy e).cmdLast = s.cmdLast := rfl
@[simp] theorem withEntropy_result (s : State) (e : Entropy) :
    (s.withEntropy e).result = s.result := rfl
@[simp] theorem withEntropy_kgRounds (s : State) (e : Entropy) :
    (s.withEntropy e).kgRounds = s.kgRounds := rfl
@[simp] theorem withEntropy_searchCap (s : State) (e : Entropy) :
    (s.withEntropy e).searchCap = s.searchCap := rfl
@[simp] theorem withEntropy_candidates (s : State) (e : Entropy) :
    (s.withEntropy e).candidates = s.candidates := rfl
@[simp] theorem withEntropy_phase (s : State) (e : Entropy) :
    (s.withEntropy e).phase = s.phase := rfl
@[simp] theorem withEntropy_rst (s : State) (e : Entropy) :
    (s.withEntropy e).rst = s.rst := rfl
@[simp] theorem withEntropy_resp (s : State) (e : Entropy) :
    (s.withEntropy e).resp = s.resp := rfl
@[simp] theorem withEntropy_entropy (s : State) (e : Entropy) :
    (s.withEntropy e).entropy = e := rfl
@[simp] theorem withEntropy_burst (s : State) (e : Entropy) :
    (s.withEntropy e).burst = s.burst := rfl
@[simp] theorem withEntropy_agenda (s : State) (e : Entropy) :
    (s.withEntropy e).agenda = s.agenda := rfl

/-! ## The bus response -/

@[simp] theorem respond_mem (s : State) (r : Response) :
    (s.respond r).mem = s.mem := rfl
@[simp] theorem respond_irqEn (s : State) (r : Response) :
    (s.respond r).irqEn = s.irqEn := rfl
@[simp] theorem respond_done (s : State) (r : Response) :
    (s.respond r).done = s.done := rfl
@[simp] theorem respond_err (s : State) (r : Response) :
    (s.respond r).err = s.err := rfl
@[simp] theorem respond_ovr (s : State) (r : Response) :
    (s.respond r).ovr = s.ovr := rfl
@[simp] theorem respond_errcode (s : State) (r : Response) :
    (s.respond r).errcode = s.errcode := rfl
@[simp] theorem respond_cmdLast (s : State) (r : Response) :
    (s.respond r).cmdLast = s.cmdLast := rfl
@[simp] theorem respond_result (s : State) (r : Response) :
    (s.respond r).result = s.result := rfl
@[simp] theorem respond_kgRounds (s : State) (r : Response) :
    (s.respond r).kgRounds = s.kgRounds := rfl
@[simp] theorem respond_searchCap (s : State) (r : Response) :
    (s.respond r).searchCap = s.searchCap := rfl
@[simp] theorem respond_candidates (s : State) (r : Response) :
    (s.respond r).candidates = s.candidates := rfl
@[simp] theorem respond_phase (s : State) (r : Response) :
    (s.respond r).phase = s.phase := rfl
@[simp] theorem respond_rst (s : State) (r : Response) :
    (s.respond r).rst = s.rst := rfl
@[simp] theorem respond_resp (s : State) (r : Response) :
    (s.respond r).resp = some r := rfl
@[simp] theorem respond_entropy (s : State) (r : Response) :
    (s.respond r).entropy = s.entropy := rfl
@[simp] theorem respond_burst (s : State) (r : Response) :
    (s.respond r).burst = s.burst := rfl
@[simp] theorem respond_agenda (s : State) (r : Response) :
    (s.respond r).agenda = s.agenda := rfl

/-! ## Reset -/

@[simp] theorem resetBlock_mem (s : State) :
    (s.resetBlock).mem = [] := rfl
@[simp] theorem resetBlock_irqEn (s : State) :
    (s.resetBlock).irqEn = false := rfl
@[simp] theorem resetBlock_done (s : State) :
    (s.resetBlock).done = false := rfl
@[simp] theorem resetBlock_err (s : State) :
    (s.resetBlock).err = false := rfl
@[simp] theorem resetBlock_ovr (s : State) :
    (s.resetBlock).ovr = false := rfl
@[simp] theorem resetBlock_errcode (s : State) :
    (s.resetBlock).errcode = 0 := rfl
@[simp] theorem resetBlock_cmdLast (s : State) :
    (s.resetBlock).cmdLast = 0 := rfl
@[simp] theorem resetBlock_result (s : State) :
    (s.resetBlock).result = 0 := rfl
@[simp] theorem resetBlock_kgRounds (s : State) :
    (s.resetBlock).kgRounds = Config.kgRoundsReset := rfl
@[simp] theorem resetBlock_searchCap (s : State) :
    (s.resetBlock).searchCap = Config.searchCapReset := rfl
@[simp] theorem resetBlock_candidates (s : State) :
    (s.resetBlock).candidates = 0 := rfl
@[simp] theorem resetBlock_phase (s : State) :
    (s.resetBlock).phase = .idle := rfl
@[simp] theorem resetBlock_rst (s : State) :
    (s.resetBlock).rst = s.rst := rfl
@[simp] theorem resetBlock_resp (s : State) :
    (s.resetBlock).resp = s.resp := rfl
@[simp] theorem resetBlock_entropy (s : State) :
    (s.resetBlock).entropy = s.entropy := rfl
@[simp] theorem resetBlock_burst (s : State) :
    (s.resetBlock).burst = s.burst := rfl
@[simp] theorem resetBlock_agenda (s : State) :
    (s.resetBlock).agenda = s.agenda := rfl

/-! ## A search left running -/

@[simp] theorem suspend_mem (s : State) (q : Search) : (s.suspend q).mem = s.mem := rfl
@[simp] theorem suspend_irqEn (s : State) (q : Search) : (s.suspend q).irqEn = s.irqEn := rfl
@[simp] theorem suspend_done (s : State) (q : Search) : (s.suspend q).done = s.done := rfl
@[simp] theorem suspend_err (s : State) (q : Search) : (s.suspend q).err = s.err := rfl
@[simp] theorem suspend_ovr (s : State) (q : Search) : (s.suspend q).ovr = s.ovr := rfl
@[simp] theorem suspend_errcode (s : State) (q : Search) : (s.suspend q).errcode = s.errcode := rfl
@[simp] theorem suspend_cmdLast (s : State) (q : Search) : (s.suspend q).cmdLast = s.cmdLast := rfl
@[simp] theorem suspend_result (s : State) (q : Search) : (s.suspend q).result = s.result := rfl
@[simp] theorem suspend_kgRounds (s : State) (q : Search) : (s.suspend q).kgRounds = s.kgRounds := rfl
@[simp] theorem suspend_searchCap (s : State) (q : Search) : (s.suspend q).searchCap = s.searchCap := rfl
@[simp] theorem suspend_candidates (s : State) (q : Search) : (s.suspend q).candidates = s.candidates := rfl
@[simp] theorem suspend_rst (s : State) (q : Search) : (s.suspend q).rst = s.rst := rfl
@[simp] theorem suspend_resp (s : State) (q : Search) : (s.suspend q).resp = s.resp := rfl
@[simp] theorem suspend_entropy (s : State) (q : Search) : (s.suspend q).entropy = s.entropy := rfl
@[simp] theorem suspend_burst (s : State) (q : Search) : (s.suspend q).burst = s.burst := rfl
@[simp] theorem suspend_agenda (s : State) (q : Search) : (s.suspend q).agenda = s.agenda := rfl

theorem suspend_phase_busy {s : State} {w : Word} {snap : Snapshot} {p : Option Search} (q : Search)
    (h : s.phase = .busy w snap p) : (s.suspend q).phase = .busy w snap (some q) := by
  simp only [suspend, h]

theorem suspend_phase_idle {s : State} (q : Search) (h : s.phase = .idle) : (s.suspend q).phase = .idle := by
  simp only [suspend, h]

/-! ## Views -/

@[simp] theorem withEntropy_src (s : State) (e : Entropy) (i : Slot) : (s.withEntropy e).src i = s.src i := rfl
@[simp] theorem withEntropy_roundsOperand (s : State) (e : Entropy) :
    (s.withEntropy e).roundsOperand = s.roundsOperand := rfl
@[simp] theorem withEntropy_capOperand (s : State) (e : Entropy) : (s.withEntropy e).capOperand = s.capOperand := rfl

theorem snapshot_of_busy {s : State} {w : Word} {snap : Snapshot} {q : Option Search}
    (h : s.phase = .busy w snap q) : s.snapshot = snap := by simp only [snapshot, h]

theorem search_of_busy {s : State} {w : Word} {snap : Snapshot} {q : Option Search}
    (h : s.phase = .busy w snap q) : s.search = q := by simp only [search, h]

theorem busy_eq_true_iff {s : State} : s.busy = true ↔ ∃ w snap q, s.phase = .busy w snap q := by
  unfold busy
  cases s.phase <;> simp [Phase.isBusy]

theorem busy_eq_false_iff {s : State} : s.busy = false ↔ s.phase = .idle := by
  unfold busy
  cases s.phase <;> simp [Phase.isBusy]

/-- Every operand is below 2^4096 (R3). -/
theorem src_lt (s : State) (i : Slot) : s.src i < 2 ^ Config.maxBits := by
  exact s.snapshot.mem.slot_lt i

end Sys2Proof.Machine.State
end

