-- ==== Sys2Proof/Laws/Bus.lean ====
section
/-! SUPPORT. The host's accesses: which offset an address of the window is, which accesses get a bus error, what a step
on a read or a write of the agenda is, and what a host write can do. -/

namespace Sys2Proof.Machine

open State

/-! ## The window -/

/-- BASE keeps alignment (R60, R64). -/
theorem base_add_mod (off : Nat) {size : Nat} (h : size = 1 ∨ size = 2 ∨ size = 4) :
    (Config.base + off) % size = off % size := by
  have hb : Config.base % 8192 = 0 := Nat.mul_mod_right _ _
  rcases h with rfl | rfl | rfl <;> omega

theorem inWindow_iff {addr : Nat} :
    inWindow addr = true ↔ Config.base ≤ addr ∧ addr < Config.base + 0x2000 := by
  unfold inWindow
  rw [Bool.and_eq_true, decide_eq_true_iff, decide_eq_true_iff]
  rfl

theorem inWindow_base {off : Nat} (h : off < 0x2000) : inWindow (Config.base + off) = true :=
  inWindow_iff.2 ⟨by omega, by omega⟩

theorem hostRead_base {s : State} {off size : Nat} (h : off < 0x2000) :
    s.hostRead (Config.base + off) size = s.readOffset off size := by
  rw [State.hostRead, inWindow_base h, if_pos rfl, Nat.add_sub_cancel_left]

theorem hostWrite_base {s : State} {off size : Nat} {v : Word} (h : off < 0x2000) :
    s.hostWrite (Config.base + off) size v = s.writeOffset off size v := by
  rw [State.hostWrite, inWindow_base h, if_pos rfl, Nat.add_sub_cancel_left]

theorem inWindow_foreign {addr : Nat} (h : addr < Config.base ∨ Config.base + 0x2000 ≤ addr) :
    inWindow addr = false := by
  rw [← Bool.not_eq_true, inWindow_iff]
  omega

/-! ## Offsets -/

theorem isBusError_eq_false {off size : Nat} : isBusError off size = false ↔
    (size = 1 ∨ size = 2 ∨ size = 4) ∧ off % size = 0 ∧ (size = 4 ∨ 0x1000 ≤ off) ∧ (off < 0x24 ∨ 0x1000 ≤ off) := by
  simp only [isBusError, Bool.or_eq_false_iff, Bool.not_eq_false', Bool.or_eq_true, beq_iff_eq, bne_eq_false_iff_eq,
    Bool.and_eq_false_iff, decide_eq_false_iff_not, and_assoc, Nat.not_le, Nat.not_lt, or_assoc]
  constructor
  · rintro ⟨h1, h2, h3, h4⟩
    exact ⟨h1, h2, h3, by omega⟩
  · rintro ⟨h1, h2, h3, h4⟩
    exact ⟨h1, h2, h3, by omega⟩

theorem Reg.offset_lt (r : Reg) : r.offset < 0x24 := by cases r <;> decide

theorem regAt_offset (r : Reg) : regAt r.offset = some r := by cases r <;> rfl

theorem isBusError_reg (r : Reg) : isBusError r.offset 4 = false := by cases r <;> rfl

theorem regAt_slot {off : Nat} (h : 0x24 ≤ off) : regAt off = none := by
  refine List.find?_eq_none.2 fun r _ => ?_
  have := r.offset_lt
  simp only [beq_iff_eq]
  omega

theorem isBusError_slot {i : Slot} {j n : Nat} (hn : n = 1 ∨ n = 2 ∨ n = 4) (hj : j % n = 0) :
    isBusError (slotBase i + j) n = false := by
  have hb := (slotBase_bounds i).1
  have hm : slotBase i = 4 * (1024 + 128 * i.val) := by
    simp only [slotBase, Config.slotsOffset, Config.slotBytes]; ring
  refine isBusError_eq_false.2 ⟨hn, ?_, .inr (by omega), .inr (by omega)⟩
  rcases hn with rfl | rfl | rfl <;> omega

theorem slotOffset_lt (i : Slot) {j : Nat} (hj : j < 512) : slotBase i + j < 0x2000 := by
  have := (slotBase_bounds i).2
  simp only [Config.slotBytes] at this
  omega

/-- An access in a slot does not run over its end. -/
theorem slotAccess_end {j n : Nat} (hn : n = 1 ∨ n = 2 ∨ n = 4) (hj : j % n = 0) (h : j < 512) : j + n ≤ 512 := by
  rcases hn with rfl | rfl | rfl <;> omega

/-- A word of operand memory that gets no bus error lies inside operand memory. -/
theorem memAccess_bounds {off size : Nat} (h : isBusError off size = false) (hr : regAt off = none)
    (hw : off < 0x2000) : 0x1000 ≤ off ∧ off + size ≤ 0x2000 := by
  obtain ⟨h1, h2, h3, h4⟩ := isBusError_eq_false.1 h
  have h5 : 0x1000 ≤ off := by
    by_contra hc
    have hs : size = 4 := by omega
    subst hs
    have hk : ∀ o : Fin 36, o.val % 4 = 0 → regAt o.val ≠ none := by decide
    exact hk ⟨off, by omega⟩ h2 hr
  refine ⟨h5, ?_⟩
  rcases h1 with rfl | rfl | rfl <;> omega

/-! ## One step on an access -/

theorem step_event {s : State} {ev : Event} {rest : List Event} (h : s.agenda = ev :: rest) :
    step s = runEvent ev { s with agenda := rest } := by rw [step, h]

theorem step_read {s : State} {addr size : Nat} {rest : List Event} (h : s.agenda = .read addr size :: rest) :
    step s = .next ({ s with agenda := rest }.hostRead addr size) := step_event h

theorem step_write {s : State} {addr size : Nat} {v : Word} {rest : List Event}
    (h : s.agenda = .write addr size v :: rest) :
    step s = .next ({ s with agenda := rest }.hostWrite addr size v) := step_event h

/-- A write of a register while RST is released (R69). -/
theorem step_wreg {s : State} {r : Reg} {v : Word} {rest : List Event} (h : s.agenda = wregEvent r v :: rest)
    (hr : s.rst = false) :
    step s = .next (({ s with agenda := rest }.writeReg v r).respond .writeDone) := by
  rw [step_write h, hostWrite_base (by have := r.offset_lt; omega), State.writeOffset, isBusError_reg,
    State.writeData, regAt_offset]
  simp only [hr, Bool.false_eq_true, if_false]

/-- A read of a register while RST is released (R68). -/
theorem step_rreg {s : State} {r : Reg} {rest : List Event} (h : s.agenda = rregEvent r :: rest)
    (hr : s.rst = false) :
    step s = .next ({ s with agenda := rest }.respond (.readData ({ s with agenda := rest }.readReg r))) := by
  rw [step_read h, hostRead_base (by have := r.offset_lt; omega), State.readOffset, isBusError_reg,
    State.readData, regAt_offset]
  simp only [hr, Bool.false_eq_true, if_false]

/-- A write in a slot while RST is released (R67). -/
theorem step_writeSlot {s : State} {i : Slot} {j n : Nat} {v : Word} {rest : List Event}
    (hn : n = 1 ∨ n = 2 ∨ n = 4) (hj : j % n = 0) (h512 : j < 512) (hr : s.rst = false)
    (h : s.agenda = .write (Config.base + (slotBase i + j)) n v :: rest) :
    step s = .next (({ s with agenda := rest }.writeMem (slotBase i + j) n v).respond .writeDone) := by
  have hb := (slotBase_bounds i).1
  rw [step_write h, hostWrite_base (slotOffset_lt i h512), State.writeOffset, isBusError_slot hn hj,
    State.writeData, regAt_slot (by omega)]
  simp only [hr, Bool.false_eq_true, if_false]

/-- A read in a slot while RST is released (R66). -/
theorem step_readSlot {s : State} {i : Slot} {j n : Nat} {rest : List Event}
    (hn : n = 1 ∨ n = 2 ∨ n = 4) (hj : j % n = 0) (h512 : j < 512) (hr : s.rst = false)
    (h : s.agenda = .read (Config.base + (slotBase i + j)) n :: rest) :
    step s = .next ({ s with agenda := rest }.respond
      (.readData (BitVec.ofNat 32 (s.mem.readLE (slotBase i + j) n)))) := by
  have hb := (slotBase_bounds i).1
  rw [step_read h, hostRead_base (slotOffset_lt i h512), State.readOffset, isBusError_slot hn hj,
    State.readData, regAt_slot (by omega)]
  simp only [hr, Bool.false_eq_true, if_false]

/-! ## What a host write can do, said once -/

/-- Every host write answers one of: the block as it was, OVR set, bytes of operand memory written while idle, the reset
state, or a register written (R64 to R69, R280, R281). -/
inductive WriteEffect (s : State) (addr : Nat) (v : Word) : State → Prop where
  | nothing : WriteEffect s addr v s
  | dropped (hb : s.busy = true) : WriteEffect s addr v s.setOvr
  | bytes (off size : Nat) (hb : s.busy = false) (h1 : 0x1000 ≤ off) (h2 : off + size ≤ 0x2000) :
      WriteEffect s addr v { s with mem := s.mem.write off size v.toNat }
  | reset (ha : addr = Config.base + Reg.ctrl.offset) (hv : v.getLsbD 1 = true) : WriteEffect s addr v s.resetBlock
  | irqEn : WriteEffect s addr v { s with irqEn := v.getLsbD 0 }
  | status (ha : addr = Config.base + Reg.status.offset) : WriteEffect s addr v (s.writeStatus v)
  | issue (ha : addr = Config.base + Reg.cmd.offset) (hb : s.busy = false) : WriteEffect s addr v (s.issue v)
  | rounds : WriteEffect s addr v { s with kgRounds := v.extractLsb' 0 16 }
  | cap : WriteEffect s addr v { s with searchCap := v }

/-- A register found at an offset has that offset. -/
theorem offset_of_regAt {off : Nat} {r : Reg} (h : regAt off = some r) : r.offset = off := by
  have := List.find?_some h
  simpa using this

/-- The inversion of `hostWrite`; while RST is asserted nothing but the response changes (R280). -/
theorem hostWrite_effect (s : State) (addr size : Nat) (v : Word) :
    ∃ t r, WriteEffect s addr v t ∧ s.hostWrite addr size v = t.respond r ∧ (s.rst = true → t = s) := by
  unfold State.hostWrite
  split
  · rename_i hw
    have hw := inWindow_iff.1 hw
    unfold State.writeOffset
    split
    · exact ⟨s, _, .nothing, rfl, fun _ => rfl⟩
    · rename_i hbus
      split
      · exact ⟨s, _, .nothing, rfl, fun _ => rfl⟩
      · rename_i hrst
        refine ⟨_, _, ?_, rfl, fun h => absurd h hrst⟩
        unfold State.writeData
        split
        · rename_i r hr
          have ha : addr = Config.base + r.offset := by
            have := offset_of_regAt hr
            omega
          cases r with
          | id => exact .nothing
          | config => exact .nothing
          | ctrl =>
            simp only [State.writeReg, State.writeCtrl]
            split
            · rename_i hv
              exact .reset ha hv
            · exact .irqEn
          | status => exact .status ha
          | cmd =>
            simp only [State.writeReg, State.writeCmd]
            split
            · rename_i hb
              exact .dropped hb
            · rename_i hb
              exact .issue ha (by simpa using hb)
          | result => exact .nothing
          | kgRounds => exact .rounds
          | searchCap => exact .cap
          | candidates => exact .nothing
        · rename_i hr
          unfold State.writeMem
          split
          · rename_i hb
            exact .dropped hb
          · rename_i hb
            have := memAccess_bounds (by simpa using hbus) hr (by omega)
            exact .bytes _ _ (by simpa using hb) this.1 this.2
  · exact ⟨s, _, .nothing, rfl, fun _ => rfl⟩

/-- The inversion of `hostRead`: nothing but the response changes (R66, R68). -/
theorem hostRead_effect (s : State) (addr size : Nat) : ∃ r, s.hostRead addr size = s.respond r := by
  unfold State.hostRead
  split
  · unfold State.readOffset
    split
    · exact ⟨_, rfl⟩
    · split <;> exact ⟨_, rfl⟩
  · exact ⟨_, rfl⟩

end Sys2Proof.Machine
end

