-- ==== Sys2Proof/Laws/Primality.lean ====
section
/-! SUPPORT. What draws, the splitting of n - 1, the rounds and the prime search do, each said once. -/

namespace Sys2Proof.Machine

/-! ## Draws -/

@[simp] theorem Entropy.next_drawn (e : Entropy) : e.next.2.drawn = e.drawn + 1 := by
  unfold Entropy.next
  split <;> rfl

@[simp] theorem Entropy.drawBits_drawn (e : Entropy) (k : Nat) : (e.drawBits k).2.drawn = e.drawn + 1 :=
  e.next_drawn

@[simp] theorem Entropy.drawWitness_drawn (e : Entropy) (lo hi : Nat) :
    (e.drawWitness lo hi).2.drawn = e.drawn + 1 := e.next_drawn

@[simp] theorem Entropy.skip_zero (e : Entropy) : e.skip 0 = e := rfl

@[simp] theorem Entropy.skip_succ (e : Entropy) (k : Nat) : e.skip (k + 1) = e.next.2.skip k := rfl

theorem Entropy.skip_add (e : Entropy) (j k : Nat) : (e.skip j).skip k = e.skip (j + k) := by
  induction j generalizing e with
  | zero => rw [Nat.zero_add, Entropy.skip_zero]
  | succ j ih => rw [Nat.succ_add, Entropy.skip_succ, Entropy.skip_succ, ih]

@[simp] theorem Entropy.skip_drawn (e : Entropy) (k : Nat) : (e.skip k).drawn = e.drawn + k := by
  induction k generalizing e with
  | zero => rfl
  | succ k ih => rw [Entropy.skip_succ, ih, Entropy.next_drawn]; omega

theorem Entropy.drawBits_lt (e : Entropy) (k : Nat) : (e.drawBits k).1 < 2 ^ k := Nat.mod_lt _ (by positivity)

theorem intoRange_bounds {lo hi : Nat} (h : lo ≤ hi) (raw : Nat) :
    lo ≤ intoRange lo hi raw ∧ intoRange lo hi raw ≤ hi := by
  unfold intoRange
  split
  · assumption
  · have := Nat.mod_lt raw (show 0 < hi - lo + 1 by omega)
    omega

theorem intoRange_of_mem {lo hi raw : Nat} (h : lo ≤ raw) (h' : raw ≤ hi) : intoRange lo hi raw = raw :=
  if_pos ⟨h, h'⟩

/-! ## Miller-Rabin -/

/-- With enough fuel the halving ends at an odd number and keeps the product (R122). -/
theorem splitTwos_spec {k d s : Nat} (hd : d ≠ 0) (h : d < 2 ^ k) :
    d * 2 ^ s = (splitTwos k d s).1 * 2 ^ (splitTwos k d s).2 ∧ (splitTwos k d s).1 % 2 = 1 ∧
      s ≤ (splitTwos k d s).2 := by
  induction k generalizing d s with
  | zero => simp at h; omega
  | succ k ih =>
    rw [splitTwos]
    split
    · have hd2 : d / 2 ≠ 0 := by omega
      obtain ⟨h1, h2, h3⟩ := ih (s := s + 1) hd2 (by rw [pow_succ] at h; omega)
      refine ⟨?_, h2, by omega⟩
      rw [← h1, pow_succ]
      have : d = d / 2 * 2 := by omega
      conv_lhs => rw [this]
      ring
    · exact ⟨rfl, by omega, le_rfl⟩

/-- Rounds that all pass draw one witness each; those that fail stop at the first that does (R124). -/
theorem millerRabinRounds_spec (n d s r : Nat) (e : Entropy) :
    ((millerRabinRounds n d s r e).1 = true → (millerRabinRounds n d s r e).2.drawn = e.drawn + r) ∧
    ((millerRabinRounds n d s r e).1 = false → ∃ k, k < r ∧
      (millerRabinRounds n d s k e).1 = true ∧ (millerRabinRounds n d s (k + 1) e).1 = false ∧
      (millerRabinRounds n d s r e).2 = (millerRabinRounds n d s (k + 1) e).2 ∧
      (millerRabinRounds n d s r e).2.drawn = e.drawn + k + 1) := by
  induction r generalizing e with
  | zero => simp [millerRabinRounds]
  | succ r ih =>
    by_cases hp : roundPasses n d s (e.drawWitness 2 (n - 2)).1 = true
    · obtain ⟨h1, h2⟩ := ih (e.drawWitness 2 (n - 2)).2
      have hstep : ∀ j, millerRabinRounds n d s (j + 1) e = millerRabinRounds n d s j (e.drawWitness 2 (n - 2)).2 :=
        fun j => by rw [millerRabinRounds]; exact if_pos hp
      simp only [hstep]
      refine ⟨fun h => ?_, fun h => ?_⟩
      · rw [h1 h, Entropy.drawWitness_drawn]; omega
      · obtain ⟨k, hk, ha, hb, hc, hd⟩ := h2 h
        refine ⟨k + 1, by omega, ?_, ?_, ?_, ?_⟩
        · rw [hstep]; exact ha
        · exact hb
        · exact hc
        · rw [hd, Entropy.drawWitness_drawn]; omega
    · have hstep : ∀ j, millerRabinRounds n d s (j + 1) e = (false, (e.drawWitness 2 (n - 2)).2) :=
        fun j => by rw [millerRabinRounds]; exact if_neg hp
      simp only [hstep]
      refine ⟨fun h => by simp at h, fun _ => ⟨0, by omega, rfl, ?_, ?_, ?_⟩⟩ <;> simp

/-- For n ≥ 5 the procedure is its rounds (R121, R122). -/
theorem millerRabin_eq_rounds {n : Nat} (h : 5 ≤ n) (r : Nat) (e : Entropy) :
    millerRabin n r e = millerRabinRounds n (oddPart n).1 (oddPart n).2 r e := by
  rw [millerRabin, if_neg (by omega), if_neg (by omega)]

/-- All that the rounds do to the source is draw from it (R11). -/
theorem millerRabinRounds_skip (n d s r : Nat) (e : Entropy) : ∃ k, (millerRabinRounds n d s r e).2 = e.skip k := by
  induction r generalizing e with
  | zero => exact ⟨0, rfl⟩
  | succ r ih =>
    rw [millerRabinRounds]
    split
    · obtain ⟨k, hk⟩ := ih e.next.2
      exact ⟨k + 1, hk⟩
    · exact ⟨1, rfl⟩

theorem millerRabin_skip (n r : Nat) (e : Entropy) : ∃ k, (millerRabin n r e).2 = e.skip k := by
  unfold millerRabin
  split
  · exact ⟨0, rfl⟩
  · split
    · exact ⟨0, rfl⟩
    · exact millerRabinRounds_skip _ _ _ _ _

/-! ## The prime search -/

/-- Setting the top two bits and bit 0 keeps a value of `bits` bits in the candidates' range (R130). -/
theorem or_topBits_inCandidateRange {bits r : Nat} (hb : 2 ≤ bits) (hr : r < 2 ^ bits) :
    InCandidateRange bits (r ||| 2 ^ (bits - 1) ||| 2 ^ (bits - 2) ||| 1) := by
  have hne : (2 : Nat) ^ (bits - 1) ||| 2 ^ (bits - 2) = 3 * 2 ^ (bits - 2) := by
    have h1 : (2 : Nat) ^ (bits - 1) = 2 * 2 ^ (bits - 2) := by rw [← pow_succ']; congr 1; omega
    have h2 := Nat.two_pow_add_eq_or_of_lt (i := bits - 1) (b := 2 ^ (bits - 2))
      (Nat.pow_lt_pow_right (by norm_num) (by omega)) 1
    rw [mul_one] at h2
    rw [← h2, h1]
    ring
  refine ⟨?_, ?_, ?_⟩
  · calc 3 * 2 ^ (bits - 2) = 2 ^ (bits - 1) ||| 2 ^ (bits - 2) := hne.symm
      _ ≤ r ||| (2 ^ (bits - 1) ||| 2 ^ (bits - 2)) := Nat.right_le_or
      _ = r ||| 2 ^ (bits - 1) ||| 2 ^ (bits - 2) := (Nat.or_assoc _ _ _).symm
      _ ≤ _ := Nat.left_le_or
  · refine Nat.or_lt_two_pow (Nat.or_lt_two_pow (Nat.or_lt_two_pow hr ?_) ?_) ?_
    · exact Nat.pow_lt_pow_right (by norm_num) (by omega)
    · exact Nat.pow_lt_pow_right (by norm_num) (by omega)
    · exact Nat.one_lt_two_pow (by omega)
  · simp

theorem candidate_inRange {bits : Nat} (e : Entropy) (hb : 2 ≤ bits) :
    InCandidateRange bits (candidate bits e).1 := or_topBits_inCandidateRange hb (e.drawBits_lt bits)

/-- The step to the next candidate keeps the range (R133). -/
theorem nextCandidate_inRange {bits c : Nat} (e : Entropy) (hb : 2 ≤ bits) (h : InCandidateRange bits c) :
    InCandidateRange bits (nextCandidate bits c e).1 := by
  unfold nextCandidate
  split
  · exact candidate_inRange e hb
  · obtain ⟨h1, h2, h3⟩ := h
    exact ⟨by dsimp only; omega, by dsimp only; omega, by dsimp only; omega⟩

theorem nextCandidate_skip (bits c : Nat) (e : Entropy) : ∃ k, (nextCandidate bits c e).2 = e.skip k := by
  unfold nextCandidate
  split
  · exact ⟨1, rfl⟩
  · exact ⟨0, rfl⟩

/-- What the search loop from the source `e` can answer, said once: a found candidate is in range and MillerRabin accepted
it on the draws that follow `k` draws from `e`; an exhausted search has a cap and counts up to it; a search left running is in range and below its cap (R131 to
R135). -/
structure SearchAnswer (bits rounds cap fuel count : Nat) (e : Entropy) (r : SearchResult × Entropy) : Prop where
  found : ∀ c n, r.1 = .found c n → InCandidateRange bits c ∧ count < n ∧ n ≤ count + fuel ∧
    ∃ k, millerRabin c rounds (e.skip k) = (true, r.2)
  exhausted : ∀ n, r.1 = .exhausted n → cap ≠ 0 ∧ n = cap
  running : ∀ c n, r.1 = .running c n → InCandidateRange bits c ∧ n = count + fuel ∧ (cap ≠ 0 → n ≠ cap)

theorem searchLoop_spec {bits rounds cap fuel c count : Nat} {e : Entropy} (hb : 2 ≤ bits)
    (hc : InCandidateRange bits c) :
    SearchAnswer bits rounds cap fuel count e (searchLoop bits rounds cap fuel c count e) := by
  induction fuel generalizing c count e with
  | zero =>
    rw [searchLoop]
    by_cases hcap : cap ≠ 0 ∧ count = cap
    · rw [if_pos hcap]
      exact ⟨by simp, by simpa [hcap.2] using hcap.1, by simp⟩
    · rw [if_neg hcap]
      refine ⟨by simp, by simp, fun c' n h => ?_⟩
      simp only [SearchResult.running.injEq] at h
      obtain ⟨rfl, rfl⟩ := h
      exact ⟨hc, rfl, fun h0 h1 => hcap ⟨h0, h1⟩⟩
  | succ fuel ih =>
    rw [searchLoop]
    by_cases hcap : cap ≠ 0 ∧ count = cap
    · rw [if_pos hcap]
      exact ⟨by simp, by simpa [hcap.2] using hcap.1, by simp⟩
    · rw [if_neg hcap]
      by_cases ht : (millerRabin c rounds e).1 = true
      · simp only [if_pos ht]
        refine ⟨fun c' n h => ?_, by simp, by simp⟩
        simp only [SearchResult.found.injEq] at h
        obtain ⟨rfl, rfl⟩ := h
        exact ⟨hc, by omega, by omega, 0, Prod.ext ht rfl⟩
      · simp only [if_neg ht]
        obtain ⟨h1, h2, h3⟩ := ih (count := count + 1) (e := (nextCandidate bits c (millerRabin c rounds e).2).2)
          (nextCandidate_inRange (millerRabin c rounds e).2 hb hc)
        refine ⟨fun c' n h => ?_, h2, fun c' n h => ?_⟩
        · obtain ⟨ha, hn, hm, k, hk⟩ := h1 c' n h
          obtain ⟨i, hi⟩ := millerRabin_skip c rounds e
          obtain ⟨j, hj⟩ := nextCandidate_skip bits c (millerRabin c rounds e).2
          have hs : (nextCandidate bits c (millerRabin c rounds e).2).2.skip k = e.skip (i + (j + k)) := by
            rw [hj, hi, Entropy.skip_add, Entropy.skip_add]
          rw [hs] at hk
          exact ⟨ha, by omega, by omega, _, hk⟩
        · obtain ⟨ha, hn, hm⟩ := h3 c' n h
          exact ⟨ha, by omega, hm⟩

/-- With fuel for every candidate that the cap still allows, a capped loop never stops short (R134). -/
theorem searchLoop_capped {bits rounds cap fuel c count : Nat} {e : Entropy} (hcap : cap ≠ 0)
    (h : count + fuel = cap) :
    (∃ c' n e', searchLoop bits rounds cap fuel c count e = (.found c' n, e') ∧ count < n ∧ n ≤ cap) ∨
    ∃ e', searchLoop bits rounds cap fuel c count e = (.exhausted cap, e') := by
  induction fuel generalizing c count e with
  | zero => exact .inr ⟨e, by rw [searchLoop, if_pos ⟨hcap, by omega⟩, show count = cap by omega]⟩
  | succ fuel ih =>
    rw [searchLoop, if_neg (by omega)]
    by_cases ht : (millerRabin c rounds e).1 = true
    · simp only [if_pos ht]
      exact .inl ⟨c, count + 1, _, rfl, by omega, by omega⟩
    · simp only [if_neg ht]
      rcases ih (c := (nextCandidate bits c (millerRabin c rounds e).2).1) (count := count + 1)
          (e := (nextCandidate bits c (millerRabin c rounds e).2).2) (by omega) with ⟨c', n, e', h1, h2, h3⟩ | h
      · exact .inl ⟨c', n, e', h1, by omega, h3⟩
      · exact .inr h

end Sys2Proof.Machine
end

