-- ==== Sys2Proof/Laws/Exec.lean ====
section
/-! SUPPORT. What a command can do, said once: it completes, ends with an error, or leaves an uncapped search
running. -/

namespace Sys2Proof.Machine

theorem saturate_toNat (n : Nat) : (saturate n).toNat = min n 0xFFFFFFFF := by
  rw [saturate, BitVec.toNat_ofNat, Nat.mod_eq_of_lt]
  omega

theorem boolResult_le (b : Bool) : (boolResult b).toNat ≤ 4096 := by cases b <;> decide

theorem bitlenResult_toNat (s : State) (ra : Slot) :
    (BitVec.ofNat 32 (bitlen (s.src ra))).toNat = bitlen (s.src ra) := by
  have := bitlen_le_iff.2 (s.src_lt ra)
  rw [BitVec.toNat_ofNat, Nat.mod_eq_of_lt]
  simp only [Config.maxBits] at this
  omega

theorem bitlen_src_le (s : State) (ra : Slot) : bitlen (s.src ra) ≤ 4096 :=
  (bitlen_le_iff (k := Config.maxBits)).2 (s.src_lt ra)

/-- A completed command: its slot writes are to its destinations in order, RESULT and CANDIDATES are written by the
commands that have them (R22, R32, R35). -/
structure CompletesAs (i : Instr) (s t : State) (e : Entropy) (ws : List (Slot × Nat)) (r c : Option Word) :
    Prop where
  eq : t = (s.withEntropy e).completeOk ws r c
  slots : ws.map (·.1) = destinations i
  result : r.isSome = writesResult i
  cand : c.isSome = searches i
  bound : ∀ x ∈ r, x.toNat ≤ 4096

/-- A command that ended with an error (R241). -/
structure RaisesAs (i : Instr) (s t : State) (e : Entropy) (k : ErrKind) (c : Option Word) : Prop where
  eq : t = (s.withEntropy e).raise k c
  cand : c.isSome = true → searches i = true

/-- An uncapped search left running (R134). -/
structure SuspendsAs (i : Instr) (s t : State) (e : Entropy) (q : Search) : Prop where
  eq : t = (s.withEntropy e).suspend q
  searches : searches i = true
  cap : s.capOperand = 0

/-- The three ways a command ends an engine turn. -/
def Ends (i : Instr) (s t : State) : Prop :=
  (∃ e ws r c, CompletesAs i s t e ws r c) ∨ (∃ e k c, RaisesAs i s t e k c) ∨ ∃ e q, SuspendsAs i s t e q

theorem Ends.ok {i : Instr} {s t : State} {ws : List (Slot × Nat)} {r c : Option Word} (e : Entropy)
    (h : t = (s.withEntropy e).completeOk ws r c) (h1 : ws.map (·.1) = destinations i)
    (h2 : r.isSome = writesResult i) (h3 : c.isSome = searches i) (h4 : ∀ x ∈ r, x.toNat ≤ 4096) : Ends i s t :=
  .inl ⟨e, ws, r, c, h, h1, h2, h3, h4⟩

theorem Ends.error {i : Instr} {s t : State} {k : ErrKind} {c : Option Word} (e : Entropy)
    (h : t = (s.withEntropy e).raise k c) (h1 : c.isSome = true → searches i = true) : Ends i s t :=
  .inr (.inl ⟨e, k, c, h, h1⟩)

theorem Ends.left {i : Instr} {s t : State} {q : Search} (e : Entropy) (h : t = (s.withEntropy e).suspend q)
    (h1 : searches i = true) (h2 : s.capOperand = 0) : Ends i s t := .inr (.inr ⟨e, q, h, h1, h2⟩)

theorem leftRunning_of_capped {s : State} (h : s.capOperand ≠ 0) : s.leftRunning = none := if_neg h

/-- A search in an engine turn is left running only without a cap (R134). -/
theorem searchTurn_running {bits : Nat} {s : State} {left : Option Search} {c n : Nat} {e : Entropy}
    (hl : s.capOperand ≠ 0 → left = none)
    (h : (searchTurn bits s.roundsOperand s.capOperand s.burst left e).1 = .running c n) : s.capOperand = 0 := by
  by_contra hcap
  rw [hl hcap, searchTurn, primeSearch, searchFuel, if_neg hcap] at h
  rcases searchLoop_capped (bits := bits) (rounds := s.roundsOperand) (c := (candidate bits e).1)
      (e := (candidate bits e).2) hcap (Nat.zero_add s.capOperand) with ⟨c', n', e', h', -, -⟩ | ⟨e', h'⟩ <;>
    simp [h'] at h

theorem withEntropy_burst_eq (s : State) (e : Entropy) : (s.withEntropy e).burst = s.burst := rfl

theorem finishDerivation_ends {s : State} {i : Instr} {rd : Slot} {r : KeyResult} {c : Option Word} (e : Entropy)
    (h1 : destinations i = [rd, slotAfter rd 1, slotAfter rd 2]) (h2 : writesResult i = false)
    (h3 : c.isSome = searches i) : Ends i s ((s.withEntropy e).finishDerivation rd r c) := by
  cases r with
  | ok n e' d => exact .ok e rfl (by simp [tripleWrites, h1]) (by simp [h2]) h3 (by simp)
  | err k => exact .error e rfl fun h => h3 ▸ h

theorem keygenSecond_ends {s : State} {rd : Slot} {w : Half} {p cp : Nat} {left : Option Search} (e : Entropy)
    (hl : s.capOperand ≠ 0 → left = none) :
    Ends (.keygen rd w) s ((s.withEntropy e).keygenSecond rd w.toNat p cp left) := by
  unfold State.keygenSecond
  dsimp only
  split
  · exact finishDerivation_ends _ rfl rfl rfl
  · exact .error _ rfl fun _ => rfl
  · rename_i h
    exact .left _ rfl rfl (searchTurn_running (s := s) hl h)

theorem keygenFirst_ends {s : State} {rd : Slot} {w : Half} {left : Option Search}
    (hl : s.capOperand ≠ 0 → left = none) : Ends (.keygen rd w) s (s.keygenFirst rd w.toNat left) := by
  unfold State.keygenFirst
  dsimp only
  split
  · exact keygenSecond_ends _ fun _ => rfl
  · exact .error _ rfl fun _ => rfl
  · rename_i h
    exact .left _ rfl rfl (searchTurn_running hl h)

theorem keygenTurn_ends (s : State) (rd : Slot) (w : Half) : Ends (.keygen rd w) s (s.keygenTurn rd w.toNat) := by
  unfold State.keygenTurn
  split
  · exact keygenFirst_ends fun _ => rfl
  · rename_i q hq
    have hl : s.capOperand ≠ 0 → some q = none := fun h => by rw [← hq, leftRunning_of_capped h]
    split
    · exact keygenFirst_ends hl
    · exact keygenSecond_ends (s := s) s.entropy hl

/-- Every command ends its engine turn in one of the three ways, and always answers a next state (R240). -/
theorem exec_ends (i : Instr) (s : State) : ∃ t, exec i s = .next t ∧ Ends i s t := by
  cases i with
  | nop => exact ⟨_, rfl, .ok s.entropy rfl rfl rfl rfl (by simp)⟩
  | modexp rd ra rb rc =>
    simp only [exec, execModexp]
    split
    · exact ⟨_, rfl, .error s.entropy rfl (by simp)⟩
    · exact ⟨_, rfl, .ok s.entropy rfl rfl rfl rfl (by simp)⟩
  | cipher rd ra rb rc =>
    simp only [exec, execCipher]
    split
    · exact ⟨_, rfl, .error s.entropy rfl (by simp)⟩
    · split
      · exact ⟨_, rfl, .error s.entropy rfl (by simp)⟩
      · exact ⟨_, rfl, .ok s.entropy rfl rfl rfl rfl (by simp)⟩
  | mrtest ra rounds => exact ⟨_, rfl, .ok _ rfl rfl rfl rfl (by simp [boolResult_le])⟩
  | gcd rd ra rb => exact ⟨_, rfl, .ok s.entropy rfl rfl rfl rfl (by simp)⟩
  | modinv rd ra rb =>
    simp only [exec, execModinv]
    split
    · exact ⟨_, rfl, .error s.entropy rfl (by simp)⟩
    · split
      · exact ⟨_, rfl, .error s.entropy rfl (by simp)⟩
      · exact ⟨_, rfl, .ok s.entropy rfl rfl rfl rfl (by simp)⟩
  | primegen rd bits =>
    simp only [exec, execPrimegen]
    split
    · split
      · exact ⟨_, rfl, .ok _ rfl rfl rfl rfl (by simp)⟩
      · exact ⟨_, rfl, .error _ rfl fun _ => rfl⟩
      · rename_i h
        exact ⟨_, rfl, .left _ rfl rfl (searchTurn_running leftRunning_of_capped h)⟩
    · exact ⟨_, rfl, .error s.entropy rfl fun _ => rfl⟩
  | derive rd ra rb =>
    simp only [exec, execDerive]
    split
    · split
      · exact ⟨_, rfl, .error s.entropy rfl (by simp)⟩
      · exact ⟨_, rfl, finishDerivation_ends s.entropy rfl rfl rfl⟩
    · exact ⟨_, rfl, .error s.entropy rfl (by simp)⟩
  | keygen rd totalBits =>
    simp only [exec, execKeygen]
    split
    · split
      · exact ⟨_, rfl, keygenTurn_ends s rd totalBits⟩
      · exact ⟨_, rfl, .error s.entropy rfl fun _ => rfl⟩
    · exact ⟨_, rfl, .error s.entropy rfl (by simp)⟩
  | bitlen ra =>
    refine ⟨_, rfl, .ok s.entropy rfl rfl rfl rfl fun x hx => ?_⟩
    obtain rfl : _ = x := by simpa using hx
    exact (bitlenResult_toNat s ra).trans_le (bitlen_src_le s ra)

/-- The inversion of `exec`: the next state is one of the three ends. -/
theorem ends_of_exec {i : Instr} {s t : State} (h : exec i s = .next t) : Ends i s t := by
  obtain ⟨t', h', he⟩ := exec_ends i s
  rw [h] at h'
  cases h'
  exact he

end Sys2Proof.Machine
end

