-- ==== Sys2Proof/Laws/Commands.lean ====
section
/-! SUPPORT. How each command ends: what a completion and an error leave alone, the slots a commit wrote, and one
equation per command and way of ending. -/

namespace Sys2Proof.Machine

open State

/-! ## Frames of the three ends -/

theorem Memory.readByte_commit_outside {m : Memory} {ws : List (Slot × Nat)} {a : Nat}
    (h : ∀ i ∈ ws.map (·.1), ¬ InSlot i a) : (m.commit ws).readByte a = m.readByte a := by
  induction ws generalizing m with
  | nil => rfl
  | cons w ws ih =>
    rw [Memory.commit_cons, ih fun i hi => h i (List.mem_cons_of_mem _ hi)]
    exact Memory.readByte_writeSlot_outside (h w.1 (by simp))

theorem keepsHostState_completeOk (s : State) (e : Entropy) (ws : List (Slot × Nat)) (r c : Option Word) :
    KeepsHostState s ((s.withEntropy e).completeOk ws r c) := ⟨rfl, rfl, rfl, rfl, rfl, rfl, rfl, rfl, rfl⟩

theorem keepsHostState_raise (s : State) (e : Entropy) (k : ErrKind) (c : Option Word) :
    KeepsHostState s ((s.withEntropy e).raise k c) := ⟨rfl, rfl, rfl, rfl, rfl, rfl, rfl, rfl, rfl⟩

theorem keepsHostState_suspend (s : State) (e : Entropy) (q : Search) :
    KeepsHostState s ((s.withEntropy e).suspend q) := ⟨rfl, rfl, rfl, rfl, rfl, rfl, rfl, rfl, rfl⟩

/-- A completion changes its slots `is` and nothing else but STATUS, RESULT, CANDIDATES and the entropy source. -/
theorem okFrame_of_eq {s t : State} {e : Entropy} {ws : List (Slot × Nat)} {r c : Option Word} {is : List Slot}
    (h : t = (s.withEntropy e).completeOk ws r c) (hs : ws.map (·.1) = is) : OkFrame is s t := by
  subst h hs
  exact ⟨⟨rfl, rfl, rfl, rfl⟩, fun _ h => Memory.readByte_commit_outside h, keepsHostState_completeOk s e ws r c⟩

theorem errFrame_raise (s : State) (e : Entropy) (k : ErrKind) (c : Option Word) :
    ErrFrame k s ((s.withEntropy e).raise k c) :=
  ⟨⟨rfl, rfl, rfl, rfl⟩, fun _ => rfl, rfl, keepsHostState_raise s e k c⟩

/-- R242: the codes in use are 0x01 to 0x07. -/
theorem ErrKind.code_bounds (k : ErrKind) : 1 ≤ k.code.toNat ∧ k.code.toNat ≤ 7 := by cases k <;> decide

/-! ## Slots after a commit -/

theorem slotAfter_distinct {rd : Slot} (h : rd.val ≤ 5) :
    rd ≠ slotAfter rd 1 ∧ rd ≠ slotAfter rd 2 ∧ slotAfter rd 1 ≠ slotAfter rd 2 := by
  revert h; revert rd; decide

theorem tripleFits_of_le {rd : Slot} (h : rd.val ≤ 5) : tripleFits rd = true := by simp [tripleFits, h]

theorem Memory.slot_commit_single {m : Memory} {i : Slot} {v : Nat} (h : v < 2 ^ Config.maxBits) :
    (m.commit [(i, v)]).slot i = v := Memory.slot_writeSlot_of_lt h

theorem Memory.slot_commit_triple {m : Memory} {rd : Slot} {n e d : Nat} (hr : rd.val ≤ 5)
    (hn : n < 2 ^ Config.maxBits) (he : e < 2 ^ Config.maxBits) (hd : d < 2 ^ Config.maxBits) :
    (m.commit (tripleWrites rd n e d)).slot rd = n ∧
    (m.commit (tripleWrites rd n e d)).slot (slotAfter rd 1) = e ∧
    (m.commit (tripleWrites rd n e d)).slot (slotAfter rd 2) = d := by
  obtain ⟨h1, h2, h3⟩ := slotAfter_distinct hr
  simp only [tripleWrites, Memory.commit_cons, Memory.commit_nil]
  refine ⟨?_, ?_, Memory.slot_writeSlot_of_lt hd⟩
  · rw [Memory.slot_writeSlot_other h2.symm, Memory.slot_writeSlot_other h1.symm, Memory.slot_writeSlot_of_lt hn]
  · rw [Memory.slot_writeSlot_other h3.symm, Memory.slot_writeSlot_of_lt he]

theorem ePub_lt : 65537 < 2 ^ Config.maxBits :=
  (show 65537 < 2 ^ 17 by norm_num).trans_le (Nat.pow_le_pow_right (by norm_num) (by norm_num [Config.maxBits]))

/-- What a completed command wrote to its destination, from the equation of its end. -/
theorem slot_of_completeOk {s t : State} {e : Entropy} {rd : Slot} {v : Nat} {r c : Option Word}
    (h : t = (s.withEntropy e).completeOk [(rd, v)] r c) (hv : v < 2 ^ Config.maxBits) : t.mem.slot rd = v := by
  rw [h, completeOk_mem]
  exact Memory.slot_commit_single hv

theorem slots_of_completeOk_triple {s t : State} {e : Entropy} {rd : Slot} {n x d : Nat} {r c : Option Word}
    (h : t = (s.withEntropy e).completeOk (tripleWrites rd n x d) r c) (hr : rd.val ≤ 5)
    (hn : n < 2 ^ Config.maxBits) (hx : x < 2 ^ Config.maxBits) (hd : d < 2 ^ Config.maxBits) :
    t.mem.slot rd = n ∧ t.mem.slot (slotAfter rd 1) = x ∧ t.mem.slot (slotAfter rd 2) = d := by
  rw [h, completeOk_mem]
  exact Memory.slot_commit_triple hr hn hx hd

/-! ## Arithmetic in one form -/

theorem gcdFn_mod (a m : Nat) : gcdFn (a % m) m = Nat.gcd a m := by
  rw [gcdFn, Nat.gcd_comm, Nat.gcd_comm a, Nat.gcd_rec m a, Nat.gcd_comm]

/-- A derivation whose product does not fit a slot (R176). -/
theorem keyDerive_eq_range {p q : Nat} (h : 2 ^ Config.maxBits ≤ p * q) : keyDerive p q = .err .operandRange :=
  if_pos h

theorem keyDerive_eq_noInverse {p q : Nat} (h : p * q < 2 ^ Config.maxBits)
    (hg : Nat.gcd 65537 ((p - 1) * (q - 1)) ≠ 1) : keyDerive p q = .err .noInverseExists := by
  unfold keyDerive
  rw [if_neg (Nat.not_le.2 h), if_pos (show gcdFn Config.ePub _ ≠ 1 from hg)]

theorem keyDerive_eq_ok {p q : Nat} (h : p * q < 2 ^ Config.maxBits)
    (hg : Nat.gcd 65537 ((p - 1) * (q - 1)) = 1) :
    keyDerive p q = .ok (p * q) 65537 (invFn 65537 ((p - 1) * (q - 1))) := by
  unfold keyDerive
  rw [if_neg (Nat.not_le.2 h), if_neg (not_not.2 (show gcdFn Config.ePub _ = 1 from hg))]
  rfl

/-! ## The search of an engine turn, and KEYGEN's two searches -/

/-- Draws made before the loop count as draws of the search. -/
theorem SearchAnswer.after_draws {bits rounds cap fuel count j : Nat} {e : Entropy} {r : SearchResult × Entropy}
    (h : SearchAnswer bits rounds cap fuel count (e.skip j) r) : SearchAnswer bits rounds cap fuel count e r := by
  refine ⟨fun c n hf => ?_, h.exhausted, h.running⟩
  obtain ⟨h1, h2, h3, k, hk⟩ := h.found c n hf
  exact ⟨h1, h2, h3, j + k, by rwa [Entropy.skip_add] at hk⟩

/-- What a search answers in one engine turn, from its start or going on from a candidate in range (R131 to R135). -/
theorem searchTurn_spec {bits rounds cap burst : Nat} {left : Option Search} {e : Entropy} (hb : 2 ≤ bits)
    (hl : ∀ q, left = some q → InCandidateRange bits q.candidate) :
    ∃ count, SearchAnswer bits rounds cap (searchFuel cap burst) count e
      (searchTurn bits rounds cap burst left e) := by
  cases left with
  | none => exact ⟨0, (searchLoop_spec (e := e.skip 1) hb (candidate_inRange e hb)).after_draws⟩
  | some q => exact ⟨q.count, searchLoop_spec hb (hl q rfl)⟩

theorem searchTurn_found {bits rounds cap burst c n : Nat} {left : Option Search} {e e' : Entropy} (hb : 2 ≤ bits)
    (hl : ∀ q, left = some q → InCandidateRange bits q.candidate)
    (h : searchTurn bits rounds cap burst left e = (.found c n, e')) : InCandidateRange bits c := by
  obtain ⟨k, hk⟩ := searchTurn_spec (rounds := rounds) (cap := cap) (burst := burst) (e := e) hb hl
  rw [h] at hk
  exact (hk.found c n rfl).1

theorem keygenTurn_first {s : State} {rd : Slot} {n : Nat} (h : ∀ l, s.leftRunning = some l → l.first = none) :
    s.keygenTurn rd n = s.keygenFirst rd n s.leftRunning := by
  unfold State.keygenTurn
  cases hl : s.leftRunning with
  | none => rfl
  | some l => simp only [h l hl]

theorem keygenTurn_second {s : State} {rd : Slot} {n p cp : Nat} {l : Search} (hl : s.leftRunning = some l)
    (h : l.first = some (p, cp)) : s.keygenTurn rd n = s.keygenSecond rd n p cp (some l) := by
  unfold State.keygenTurn
  simp only [hl, h]

theorem keygenFirst_found {s : State} {rd : Slot} {n p cp : Nat} {left : Option Search} {e : Entropy}
    (h : searchTurn (n / 2) s.roundsOperand s.capOperand s.burst left s.entropy = (.found p cp, e)) :
    s.keygenFirst rd n left = (s.withEntropy e).keygenSecond rd n p cp none := by
  unfold State.keygenFirst
  rw [h]

theorem keygenFirst_exhausted {s : State} {rd : Slot} {n cp : Nat} {left : Option Search} {e : Entropy}
    (h : searchTurn (n / 2) s.roundsOperand s.capOperand s.burst left s.entropy = (.exhausted cp, e)) :
    s.keygenFirst rd n left = (s.withEntropy e).raise .primeSearchExhausted (some (saturate cp)) := by
  unfold State.keygenFirst
  rw [h]

theorem keygenSecond_found {s : State} {rd : Slot} {n p cp q cq : Nat} {left : Option Search} {e : Entropy}
    (h : searchTurn (n - n / 2) s.roundsOperand s.capOperand s.burst left s.entropy = (.found q cq, e)) :
    s.keygenSecond rd n p cp left =
      (s.withEntropy e).finishDerivation rd (keyDerive p q) (some (saturate (cp + cq))) := by
  unfold State.keygenSecond
  rw [h]

theorem keygenSecond_exhausted {s : State} {rd : Slot} {n p cp cq : Nat} {left : Option Search} {e : Entropy}
    (h : searchTurn (n - n / 2) s.roundsOperand s.capOperand s.burst left s.entropy = (.exhausted cq, e)) :
    s.keygenSecond rd n p cp left = (s.withEntropy e).raise .primeSearchExhausted (some (saturate (cp + cq))) := by
  unfold State.keygenSecond
  rw [h]

/-! ## One equation per command and end -/

theorem exec_nop (s : State) : exec .nop s = .next ((s.withEntropy s.entropy).completeOk [] none none) := rfl

theorem exec_modexp {s : State} {rd ra rb rc : Slot} (h : s.src rc ≠ 0) :
    exec (.modexp rd ra rb rc) s = .next ((s.withEntropy s.entropy).completeOk
      [(rd, modExpFn (s.src ra) (s.src rb) (s.src rc))] none none) := by
  simp only [exec, execModexp]
  rw [if_neg h]
  rfl

theorem exec_modexp_zero {s : State} {rd ra rb rc : Slot} (h : s.src rc = 0) :
    exec (.modexp rd ra rb rc) s = .next ((s.withEntropy s.entropy).raise .zeroModulus none) := by
  simp only [exec, execModexp]
  rw [if_pos h]
  rfl

theorem exec_cipher {s : State} {rd ra rb rc : Slot} (h : s.src ra < s.src rb) :
    exec (.cipher rd ra rb rc) s = .next ((s.withEntropy s.entropy).completeOk
      [(rd, modExpFn (s.src ra) (s.src rc) (s.src rb))] none none) := by
  simp only [exec, execCipher]
  rw [if_neg (by omega), if_neg (by omega)]
  rfl

theorem exec_cipher_zero {s : State} {rd ra rb rc : Slot} (h : s.src rb = 0) :
    exec (.cipher rd ra rb rc) s = .next ((s.withEntropy s.entropy).raise .zeroModulus none) := by
  simp only [exec, execCipher]
  rw [if_pos h]
  rfl

theorem exec_cipher_large {s : State} {rd ra rb rc : Slot} (h : s.src rb ≠ 0) (hl : s.src rb ≤ s.src ra) :
    exec (.cipher rd ra rb rc) s = .next ((s.withEntropy s.entropy).raise .messageTooLarge none) := by
  simp only [exec, execCipher]
  rw [if_neg h, if_pos hl]
  rfl

theorem exec_mrtest (s : State) (ra : Slot) (rounds : Half) :
    exec (.mrtest ra rounds) s = .next ((s.withEntropy (millerRabin (s.src ra) rounds.toNat s.entropy).2).completeOk
      [] (some (boolResult (millerRabin (s.src ra) rounds.toNat s.entropy).1)) none) := rfl

theorem exec_gcd (s : State) (rd ra rb : Slot) :
    exec (.gcd rd ra rb) s = .next ((s.withEntropy s.entropy).completeOk
      [(rd, Nat.gcd (s.src ra) (s.src rb))] none none) := rfl

theorem exec_modinv {s : State} {rd ra rb : Slot} (h : s.src rb ≠ 0) (hg : Nat.gcd (s.src ra) (s.src rb) = 1) :
    exec (.modinv rd ra rb) s = .next ((s.withEntropy s.entropy).completeOk
      [(rd, invFn (s.src ra) (s.src rb))] none none) := by
  simp only [exec, execModinv]
  rw [if_neg h, if_neg (by rw [gcdFn_mod, hg]; simp)]
  rfl

theorem exec_modinv_zero {s : State} {rd ra rb : Slot} (h : s.src rb = 0) :
    exec (.modinv rd ra rb) s = .next ((s.withEntropy s.entropy).raise .zeroModulus none) := by
  simp only [exec, execModinv]
  rw [if_pos h]
  rfl

theorem exec_modinv_none {s : State} {rd ra rb : Slot} (h : s.src rb ≠ 0)
    (hg : Nat.gcd (s.src ra) (s.src rb) ≠ 1) :
    exec (.modinv rd ra rb) s = .next ((s.withEntropy s.entropy).raise .noInverseExists none) := by
  simp only [exec, execModinv]
  rw [if_neg h, if_pos (by rwa [gcdFn_mod])]
  rfl

theorem exec_primegen {s : State} {rd : Slot} {bits : Half} (h : bits.toNat ∈ Config.primeSizes) :
    exec (.primegen rd bits) s =
      let r := searchTurn bits.toNat s.roundsOperand s.capOperand s.burst s.leftRunning s.entropy
      match r.1 with
      | .found c count => .next ((s.withEntropy r.2).completeOk [(rd, c)] none (some (saturate count)))
      | .exhausted count => .next ((s.withEntropy r.2).raise .primeSearchExhausted (some (saturate count)))
      | .running c count => .next ((s.withEntropy r.2).suspend ⟨none, c, count⟩) := by
  have hc : Config.primeSizes.contains (immOperand bits) = true := List.contains_iff_mem.2 h
  simp only [exec, execPrimegen]
  rw [if_pos hc]
  rfl

theorem exec_primegen_size {s : State} {rd : Slot} {bits : Half} (h : bits.toNat ∉ Config.primeSizes) :
    exec (.primegen rd bits) s = .next ((s.withEntropy s.entropy).raise .invalidKeySize (some 0)) := by
  have hc : ¬ Config.primeSizes.contains (immOperand bits) = true := fun hc => h (List.contains_iff_mem.1 hc)
  simp only [exec, execPrimegen]
  rw [if_neg hc]
  rfl

theorem exec_derive {s : State} {rd ra rb : Slot} (h : rd.val ≤ 5) (ha : 2 ≤ s.src ra) (hb : 2 ≤ s.src rb) :
    exec (.derive rd ra rb) s =
      .next ((s.withEntropy s.entropy).finishDerivation rd (keyDerive (s.src ra) (s.src rb)) none) := by
  simp only [exec, execDerive]
  rw [if_pos (tripleFits_of_le h), if_neg (by omega)]
  rfl

theorem exec_derive_small {s : State} {rd ra rb : Slot} (h : rd.val ≤ 5) (hs : s.src ra < 2 ∨ s.src rb < 2) :
    exec (.derive rd ra rb) s = .next ((s.withEntropy s.entropy).raise .operandRange none) := by
  simp only [exec, execDerive]
  rw [if_pos (tripleFits_of_le h), if_pos hs]
  rfl

theorem exec_keygen {s : State} {rd : Slot} {totalBits : Half} (h : rd.val ≤ 5)
    (hs : totalBits.toNat ∈ Config.keySizes) :
    exec (.keygen rd totalBits) s = .next (s.keygenTurn rd totalBits.toNat) := by
  have hc : Config.keySizes.contains (immOperand totalBits) = true := List.contains_iff_mem.2 hs
  simp only [exec, execKeygen]
  rw [if_pos (tripleFits_of_le h), if_pos hc]
  rfl

theorem exec_keygen_size {s : State} {rd : Slot} {totalBits : Half} (h : rd.val ≤ 5)
    (hs : totalBits.toNat ∉ Config.keySizes) :
    exec (.keygen rd totalBits) s = .next ((s.withEntropy s.entropy).raise .invalidKeySize (some 0)) := by
  have hc : ¬ Config.keySizes.contains (immOperand totalBits) = true := fun hc => hs (List.contains_iff_mem.1 hc)
  simp only [exec, execKeygen]
  rw [if_pos (tripleFits_of_le h), if_neg hc]
  rfl

theorem exec_bitlen (s : State) (ra : Slot) :
    exec (.bitlen ra) s = .next ((s.withEntropy s.entropy).completeOk []
      (some (BitVec.ofNat 32 (bitlen (s.src ra)))) none) := rfl

end Sys2Proof.Machine
end

