-- ==== Sys2Proof/Laws/Encode.lean ====
section
/-! SUPPORT. The fields of an encoded word read back, and a selected row fixes the opcode. -/

namespace Sys2Proof

@[simp] theorem slotBits_toFin (i : Slot) : (slotBits i).toFin = i := rfl

theorem opField_formatR (op : BitVec 8) (rd ra rb rc : Slot) : opField (formatR op rd ra rb rc) = op := by
  have h : (formatR op rd ra rb rc).extractLsb' 0 8 = op := by
    apply BitVec.eq_of_getLsbD_eq
    intro k hk
    simp only [formatR, placeField]
    interval_cases k <;> simp
  exact h

theorem rdField_formatR (op : BitVec 8) (rd ra rb rc : Slot) : rdField (formatR op rd ra rb rc) = rd := by
  have h : (formatR op rd ra rb rc).extractLsb' 8 3 = slotBits rd := by
    apply BitVec.eq_of_getLsbD_eq
    intro k hk
    simp only [formatR, placeField]
    interval_cases k <;> simp
  rw [rdField, h, slotBits_toFin]

theorem raField_formatR (op : BitVec 8) (rd ra rb rc : Slot) : raField (formatR op rd ra rb rc) = ra := by
  have h : (formatR op rd ra rb rc).extractLsb' 11 3 = slotBits ra := by
    apply BitVec.eq_of_getLsbD_eq
    intro k hk
    simp only [formatR, placeField]
    interval_cases k <;> simp
  rw [raField, h, slotBits_toFin]

theorem rbField_formatR (op : BitVec 8) (rd ra rb rc : Slot) : rbField (formatR op rd ra rb rc) = rb := by
  have h : (formatR op rd ra rb rc).extractLsb' 14 3 = slotBits rb := by
    apply BitVec.eq_of_getLsbD_eq
    intro k hk
    simp only [formatR, placeField]
    interval_cases k <;> simp
  rw [rbField, h, slotBits_toFin]

theorem rcField_formatR (op : BitVec 8) (rd ra rb rc : Slot) : rcField (formatR op rd ra rb rc) = rc := by
  have h : (formatR op rd ra rb rc).extractLsb' 17 3 = slotBits rc := by
    apply BitVec.eq_of_getLsbD_eq
    intro k hk
    simp only [formatR, placeField]
    interval_cases k <;> simp
  rw [rcField, h, slotBits_toFin]

theorem opField_formatI (op : BitVec 8) (rd ra : Slot) (imm : Half) : opField (formatI op rd ra imm) = op := by
  have h : (formatI op rd ra imm).extractLsb' 0 8 = op := by
    apply BitVec.eq_of_getLsbD_eq
    intro k hk
    simp only [formatI, placeField]
    interval_cases k <;> simp
  exact h

theorem rdField_formatI (op : BitVec 8) (rd ra : Slot) (imm : Half) : rdField (formatI op rd ra imm) = rd := by
  have h : (formatI op rd ra imm).extractLsb' 8 3 = slotBits rd := by
    apply BitVec.eq_of_getLsbD_eq
    intro k hk
    simp only [formatI, placeField]
    interval_cases k <;> simp
  rw [rdField, h, slotBits_toFin]

theorem raField_formatI (op : BitVec 8) (rd ra : Slot) (imm : Half) : raField (formatI op rd ra imm) = ra := by
  have h : (formatI op rd ra imm).extractLsb' 11 3 = slotBits ra := by
    apply BitVec.eq_of_getLsbD_eq
    intro k hk
    simp only [formatI, placeField]
    interval_cases k <;> simp
  rw [raField, h, slotBits_toFin]

theorem immField_formatI (op : BitVec 8) (rd ra : Slot) (imm : Half) : immField (formatI op rd ra imm) = imm := by
  have h : (formatI op rd ra imm).extractLsb' 16 16 = imm := by
    apply BitVec.eq_of_getLsbD_eq
    intro k hk
    simp only [formatI, placeField]
    interval_cases k <;> simp
  exact h

/-- The opcode of a row (R95). -/
def Mnemonic.opcode (m : Mnemonic) : BitVec 8 := m.row.pattern.extractLsb' 0 8

/-- Every mask covers OP, so a row is selected only by words with its opcode (R95). -/
theorem opField_of_selects {m : Mnemonic} {w : Word} (h : m.row.selects w = true) : opField w = m.opcode := by
  have h : w &&& m.row.mask = m.row.pattern := by simpa [Row.selects] using h
  have hm : m.row.mask.extractLsb' 0 8 = BitVec.allOnes 8 := by cases m <;> decide
  rw [Mnemonic.opcode, ← h, BitVec.extractLsb'_and, hm, BitVec.and_allOnes]
  rfl

theorem opcode_injective {m m' : Mnemonic} (h : m.opcode = m'.opcode) : m = m' := by
  revert h
  cases m <;> cases m' <;> decide

/-- A word that selects a row finds that row and no other (R95, R96). -/
theorem findRow_eq_some_iff {m : Mnemonic} {w : Word} : findRow w = some m ↔ m.row.selects w = true := by
  constructor
  · intro h
    exact List.find?_some (p := fun m : Mnemonic => m.row.selects w) h
  · intro h
    have hs : ∃ m', findRow w = some m' := by
      rw [← Option.isSome_iff_exists, findRow, List.find?_isSome]
      exact ⟨m, by cases m <;> decide, h⟩
    obtain ⟨m', hm'⟩ := hs
    have h' : m'.row.selects w = true := List.find?_some (p := fun m : Mnemonic => m.row.selects w) hm'
    rw [hm', opcode_injective ((opField_of_selects h').symm.trans (opField_of_selects h))]

end Sys2Proof
end

