-- ==== Sys2Proof/Laws/PerInstr.lean ====
section
/-! SUPPORT. The family RowMatch of LAWS.json: every command's encoding selects the command's own row of the opcode map
(R95), one lemma per constructor. -/

namespace Sys2Proof.Laws.RowMatch

/-- The encoded word selects the row of the command's mnemonic: `w AND mask = match` (R95). -/
def Statement (i : Instr) : Prop := i.mnemonic.row.selects (encode i) = true

/-- Format R words keep only what the mask covers: without a third source. -/
theorem formatR_and_mask3 (op : BitVec 8) (rd ra rb : Slot) :
    formatR op rd ra rb 0 &&& 0xFFFE00FF = op.zeroExtend 32 := by
  apply BitVec.eq_of_getLsbD_eq
  intro k hk
  simp only [formatR, placeField]
  interval_cases k <;> simp [slotBits]

/-- Format R words keep only what the mask covers: with all four slots. -/
theorem formatR_and_mask4 (op : BitVec 8) (rd ra rb rc : Slot) :
    formatR op rd ra rb rc &&& 0xFFF000FF = op.zeroExtend 32 := by
  apply BitVec.eq_of_getLsbD_eq
  intro k hk
  simp only [formatR, placeField]
  interval_cases k <;> simp

/-- Format I words of a command that names a destination. -/
theorem formatI_and_maskRd (op : BitVec 8) (rd : Slot) (imm : Half) :
    formatI op rd 0 imm &&& 0x0000F8FF = op.zeroExtend 32 := by
  apply BitVec.eq_of_getLsbD_eq
  intro k hk
  simp only [formatI, placeField]
  interval_cases k <;> simp [slotBits]

theorem selects_of_and {r : Row} {w : Word} (h : w &&& r.mask = r.pattern) : r.selects w = true := by
  simpa [Row.selects] using h

theorem nop : Statement .nop := by
  unfold Statement
  decide

theorem modexp (rd ra rb rc : Slot) : Statement (.modexp rd ra rb rc) :=
  selects_of_and (formatR_and_mask4 0x01 rd ra rb rc)

theorem cipher (rd ra rb rc : Slot) : Statement (.cipher rd ra rb rc) :=
  selects_of_and (formatR_and_mask4 0x02 rd ra rb rc)

theorem mrtest (ra : Slot) (rounds : Half) : Statement (.mrtest ra rounds) := by
  refine selects_of_and ?_
  show formatI 0x03 0 ra rounds &&& 0x0000C7FF = 0x00000003
  apply BitVec.eq_of_getLsbD_eq
  intro k hk
  simp only [formatI, placeField]
  interval_cases k <;> simp [slotBits]

theorem gcd (rd ra rb : Slot) : Statement (.gcd rd ra rb) := selects_of_and (formatR_and_mask3 0x04 rd ra rb)

theorem modinv (rd ra rb : Slot) : Statement (.modinv rd ra rb) := selects_of_and (formatR_and_mask3 0x05 rd ra rb)

theorem primegen (rd : Slot) (bits : Half) : Statement (.primegen rd bits) :=
  selects_of_and (formatI_and_maskRd 0x06 rd bits)

theorem derive (rd ra rb : Slot) : Statement (.derive rd ra rb) := selects_of_and (formatR_and_mask3 0x07 rd ra rb)

theorem keygen (rd : Slot) (totalBits : Half) : Statement (.keygen rd totalBits) :=
  selects_of_and (formatI_and_maskRd 0x08 rd totalBits)

theorem bitlen (ra : Slot) : Statement (.bitlen ra) := by
  unfold Statement
  revert ra
  decide

end Sys2Proof.Laws.RowMatch
end

