-- ==== Sys2Proof/Laws/Step.lean ====
section
/-! SUPPORT. One step, said once: whose turn it is, what the engine's turn does, and the inversion of `step`. -/

namespace Sys2Proof.Machine

open State

/-! ## The engine's view keeps everything but the turn itself -/

theorem engineView_eq (s : State) :
    ∃ burst agenda, s.engineView = { s with burst := burst, agenda := agenda } := by
  unfold State.engineView
  split
  · exact ⟨_, _, rfl⟩
  all_goals exact ⟨s.burst, s.agenda, rfl⟩

@[simp] theorem engineView_mem (s : State) : s.engineView.mem = s.mem := by
  obtain ⟨b, a, h⟩ := engineView_eq s; rw [h]

@[simp] theorem engineView_irqEn (s : State) : s.engineView.irqEn = s.irqEn := by
  obtain ⟨b, a, h⟩ := engineView_eq s; rw [h]

@[simp] theorem engineView_done (s : State) : s.engineView.done = s.done := by
  obtain ⟨b, a, h⟩ := engineView_eq s; rw [h]

@[simp] theorem engineView_err (s : State) : s.engineView.err = s.err := by
  obtain ⟨b, a, h⟩ := engineView_eq s; rw [h]

@[simp] theorem engineView_ovr (s : State) : s.engineView.ovr = s.ovr := by
  obtain ⟨b, a, h⟩ := engineView_eq s; rw [h]

@[simp] theorem engineView_errcode (s : State) : s.engineView.errcode = s.errcode := by
  obtain ⟨b, a, h⟩ := engineView_eq s; rw [h]

@[simp] theorem engineView_cmdLast (s : State) : s.engineView.cmdLast = s.cmdLast := by
  obtain ⟨b, a, h⟩ := engineView_eq s; rw [h]

@[simp] theorem engineView_result (s : State) : s.engineView.result = s.result := by
  obtain ⟨b, a, h⟩ := engineView_eq s; rw [h]

@[simp] theorem engineView_kgRounds (s : State) : s.engineView.kgRounds = s.kgRounds := by
  obtain ⟨b, a, h⟩ := engineView_eq s; rw [h]

@[simp] theorem engineView_searchCap (s : State) : s.engineView.searchCap = s.searchCap := by
  obtain ⟨b, a, h⟩ := engineView_eq s; rw [h]

@[simp] theorem engineView_candidates (s : State) : s.engineView.candidates = s.candidates := by
  obtain ⟨b, a, h⟩ := engineView_eq s; rw [h]

@[simp] theorem engineView_phase (s : State) : s.engineView.phase = s.phase := by
  obtain ⟨b, a, h⟩ := engineView_eq s; rw [h]

@[simp] theorem engineView_rst (s : State) : s.engineView.rst = s.rst := by
  obtain ⟨b, a, h⟩ := engineView_eq s; rw [h]

@[simp] theorem engineView_entropy (s : State) : s.engineView.entropy = s.entropy := by
  obtain ⟨b, a, h⟩ := engineView_eq s; rw [h]

/-! ## The engine's turn -/

/-- With the turn the engine's, a step is the engine's turn (R240). -/
theorem step_engine {s : State} (h : s.engineNext = true) : step s = engineTurn s.engineView := by
  unfold State.engineNext at h
  unfold step State.engineView
  cases ha : s.agenda with
  | nil => rfl
  | cons ev rest =>
    rw [ha] at h
    cases ev with
    | engine burst => rfl
    | read _ _ => cases h
    | write _ _ _ => cases h
    | rst _ => cases h

theorem engineTurn_busy {s : State} {w : Word} {snap : Snapshot} {q : Option Search} (hr : s.rst = false)
    (hp : s.phase = .busy w snap q) : engineTurn s = runWord w s := by
  unfold engineTurn
  simp [hr, hp]

theorem runWord_command {w : Word} {s : State} {i : Instr} (h : decode w = .command i) : runWord w s = exec i s := by
  unfold runWord
  simp [h]

theorem runWord_illegal {w : Word} {s : State} {y : Illegal} (h : decode w = .illegal y) :
    runWord w s = .next ((s.withEntropy s.entropy).raise .illegalCommand none) := by
  unfold runWord
  simp only [h]
  rfl

/-- The step that runs the word (R96, R240). -/
theorem step_runWord {s : State} {w : Word} {snap : Snapshot} {q : Option Search} (h : s.engineNext = true)
    (hr : s.rst = false) (hp : s.phase = .busy w snap q) : step s = runWord w s.engineView := by
  rw [step_engine h, engineTurn_busy (by simpa using hr) (by simpa using hp)]

/-! ## The inversion of `step` -/

/-- Every step is one of: nothing for the engine to do; the running word's completion step; a host access; a level of
RST. -/
inductive StepEffect (s : State) : State → Prop where
  | waits (h : s.engineNext = true) (hi : s.rst = true ∨ s.phase = .idle) : StepEffect s s.engineView
  | illegal (w : Word) (snap : Snapshot) (q : Option Search) (h : s.engineNext = true) (hr : s.rst = false)
      (hp : s.phase = .busy w snap q) (y : Illegal) (hd : decode w = .illegal y) :
      StepEffect s ((s.engineView.withEntropy s.engineView.entropy).raise .illegalCommand none)
  | command (w : Word) (snap : Snapshot) (q : Option Search) (h : s.engineNext = true) (hr : s.rst = false)
      (hp : s.phase = .busy w snap q) (i : Instr) (hd : decode w = .command i) (t : State)
      (he : exec i s.engineView = .next t) : StepEffect s t
  | read (addr size : Nat) (rest : List Event) (ha : s.agenda = .read addr size :: rest) (r : Response) :
      StepEffect s ({ s with agenda := rest }.respond r)
  | write (addr size : Nat) (v : Word) (rest : List Event) (ha : s.agenda = .write addr size v :: rest) (t : State)
      (he : WriteEffect { s with agenda := rest } addr v t) (hr : s.rst = true → t = { s with agenda := rest })
      (r : Response) : StepEffect s (t.respond r)
  | pin (level : Bool) (rest : List Event) (ha : s.agenda = .rst level :: rest) :
      StepEffect s ({ s with agenda := rest }.driveRst level)

theorem step_effect {s t : State} (h : step s = .next t) : StepEffect s t := by
  by_cases hn : s.engineNext = true
  · by_cases hr : s.rst = true
    · rw [step_engine hn, engineTurn, if_pos (by simpa using hr)] at h
      cases h
      exact .waits hn (.inl hr)
    · have hr' : s.rst = false := by simpa using hr
      cases hp : s.phase with
      | idle =>
        rw [step_engine hn, engineTurn, if_neg (by simpa using hr), engineView_phase, hp] at h
        cases h
        exact .waits hn (.inr hp)
      | busy w snap q =>
        rw [step_runWord hn hr' hp] at h
        cases hd : decode w with
        | command i => exact .command w snap q hn hr' hp i hd t (by rwa [runWord_command hd] at h)
        | illegal y =>
          rw [runWord_illegal hd] at h
          cases h
          exact .illegal w snap q hn hr' hp y hd
  · unfold State.engineNext at hn
    split at hn
    · simp at hn
    · simp at hn
    · rename_i addr size rest ha
      rw [step_read ha] at h
      obtain ⟨r, hr⟩ := hostRead_effect { s with agenda := rest } addr size
      rw [hr] at h
      cases h
      exact .read addr size rest ha r
    · rename_i addr size v rest ha
      rw [step_write ha] at h
      obtain ⟨t', r, he, hr, hs⟩ := hostWrite_effect { s with agenda := rest } addr size v
      rw [hr] at h
      cases h
      exact .write addr size v rest ha t' he hs r
    · rename_i level rest ha
      rw [step_event ha] at h
      cases h
      exact .pin level rest ha

end Sys2Proof.Machine
end

