-- ==== Sys2Proof/Tests/Slice0.lean ====
section
/-! SUPPORT. Tests whose expected results are those of spec/95_test_vectors.md (named in each comment) or worked out by
hand from a rule, and for every obligation with hypotheses a witness `witness_<obligation>` that meets them. -/

namespace Sys2Proof.Tests

-- One theorem after the other: each test is a kernel evaluation, and side by side they need more threads than memory allows.
set_option Elab.async false

open Sys2Proof Sys2Proof.Machine

/-- The next state, if there is one. -/
def nextOf (o : Host.Outcome State Fault Refusal) : Option State :=
  match o with
  | .next t => some t
  | .fault _ => none
  | .refused _ => none

/-- An idle block with these slots, ROUNDS, CAP and answers of the entropy source. -/
def slotsState (ws : List (Slot × Nat)) (rounds : Half) (cap : Word) (tape : List Nat) : State :=
  { State.reset with
    mem := Memory.commit [] ws, kgRounds := rounds, searchCap := cap, entropy := { tape := tape, drawn := 0 } }

/-- `w` issued on `s`, its completion step next. -/
def running (s : State) (w : Word) : State := s.fetched w

/-- The state after `w` was issued on `s` and its engine turn taken. -/
def after (s : State) (w : Word) : Option State := nextOf (step (running s w))

/-- 2^256 - 1. -/
def M256 : Nat := 2 ^ 256 - 1

/-- P0 of 95_test_vectors.md section 2.5. -/
def P0 : Nat := 0xc000000000000000000000000000000000000000000000000000000000000001

/-- P25 of 95_test_vectors.md section 2.5. -/
def P25 : Nat := 0xc000000000000000000000000000000000000000000000000000000000000031

/-! ## WellFormed: each check refuses an ill-formed term (R99) -/

theorem test_derive6_ill_formed : (Instr.derive 6 0 1).wellFormed = false := by decide
theorem test_derive7_ill_formed : (Instr.derive 7 0 0).wellFormed = false := by decide
theorem test_keygen6_ill_formed : (Instr.keygen 6 512).wellFormed = false := by decide
theorem test_keygen7_ill_formed : (Instr.keygen 7 768).wellFormed = false := by decide
/-- R101: the assembler refuses slot b8, immediate 65536 and a key triple from b6. -/
theorem test_assembler_refuses : assemble (.bitlen 8) = none ∧ assemble (.mrtest 0 65536) = none ∧
    assemble (.keygen 6 512) = none ∧ assemble (.encrypt 4 3 6) = none := by decide

/-! ## Decoding: words written out from R91, R92, R95 -/

theorem test_decode_nop : decode 0x00000000 = .command .nop := by decide
/-- OP 0x01, RD 7, RA 6, RB 5, RC 4: 0b0000_0000_0000_100_101_110_111_00000001. -/
theorem test_decode_modexp : decode 0b00000000000010010111011100000001 = .command (.modexp 7 6 5 4) := by decide
/-- OP 0x02, RD 1, RA 2, RB 4, RC 7. -/
theorem test_decode_cipher : decode 0b00000000000011110001000100000010 = .command (.cipher 1 2 4 7) := by decide
/-- OP 0x03, RA 5, IMM16 0x0102. -/
theorem test_decode_mrtest : decode 0b00000001000000100010100000000011 = .command (.mrtest 5 0x0102) := by decide
/-- OP 0x04, RD 1, RA 2, RB 4. -/
theorem test_decode_gcd : decode 0b00000000000000010001000100000100 = .command (.gcd 1 2 4) := by decide
/-- OP 0x05, RD 6, RA 5, RB 3. -/
theorem test_decode_modinv : decode 0b00000000000000001110111000000101 = .command (.modinv 6 5 3) := by decide
/-- OP 0x06, RD 5, IMM16 1024. -/
theorem test_decode_primegen : decode 0b00000100000000000000010100000110 = .command (.primegen 5 1024) := by decide
/-- OP 0x07, RD 3, RA 1, RB 6. -/
theorem test_decode_derive : decode 0b00000000000000011000101100000111 = .command (.derive 3 1 6) := by decide
/-- OP 0x08, RD 2, IMM16 2048. -/
theorem test_decode_keygen : decode 0b00001000000000000000001000001000 = .command (.keygen 2 2048) := by decide
/-- OP 0x09, RA 6. -/
theorem test_decode_bitlen : decode 0b00000000000000000011000000001001 = .command (.bitlen 6) := by decide
/-- V-ENC2 to V-ENC12. -/
theorem test_decode_illegal :
    [0x00000100, 0x0000000A, 0xFF000000, 0x00100001, 0x00004203, 0x0000C003, 0x00020009, 0x0000F809, 0x00004607,
      0x00000707, 0x02000908].map (fun w => decodeTableWord 32 w) = List.replicate 11 none := by decide

/-! ## One step per command, against 95_test_vectors.md -/

/-- Section 2.11: NOP completes with STATUS 2. -/
theorem test_nop : (after State.reset 0x00000000).map (fun t => (t.statusWord, t.mem)) = some (0x2, []) := by
  decide +kernel
/-- The host's placement: withFetchWord makes the next step run the word from reset. -/
theorem test_fetch_from_reset :
    (nextOf (step (State.reset.withFetchWord 32 0x0000000A))).map State.statusWord = some 0x106 := by decide +kernel
/-- V-MOD1. -/
theorem test_modexp : (after (slotsState [(0, 4), (1, 13), (2, 497)] 40 1 []) 0x00044301).map
    (fun t => (t.mem.slot 3, t.statusWord)) = some (445, 0x2) := by decide +kernel
/-- Section 2.2, same-slot case: 5^5 mod 5 = 0. -/
theorem test_modexp_same_slot : (after (slotsState [(0, 5)] 40 1 []) 0x00000001).map
    (fun t => (t.mem, t.statusWord)) = some ([], 0x2) := by decide +kernel
/-- V-CIP1. -/
theorem test_cipher : (after (slotsState [(0, 36863), (1, 65537), (3, 26984)] 40 1 []) 0x00021C02).map
    (fun t => (t.mem.slot 4, t.statusWord)) = some (14640, 0x2) := by decide +kernel
/-- V-CIP6: an input equal to n is too large. -/
theorem test_cipher_large : (after (slotsState [(0, 36863), (1, 65537), (3, 36863)] 40 1 []) 0x00021C02).map
    (fun t => (t.mem == Memory.commit [] [(0, 36863), (1, 65537), (3, 36863)], t.statusWord)) =
      some (true, 0x406) := by decide +kernel
/-- V-MR12: the second round fails. -/
theorem test_mrtest : (after (slotsState [(0, 341)] 40 1 [4, 2]) 0x00020003).map
    (fun t => (t.result, t.statusWord, t.entropy)) = some (0, 0x2, { tape := [], drawn := 2 }) := by decide +kernel
/-- V-MR8: 101 with witnesses 2, 50, 99. -/
theorem test_mrtest_prime : (after (slotsState [(0, 101)] 40 1 [2, 50, 99]) 0x00030003).map
    (fun t => (t.result, t.entropy.tape)) = some (1, []) := by decide +kernel
/-- V-GCD1. -/
theorem test_gcd : (after (slotsState [(0, 48), (1, 18)] 40 1 []) 0x00004204).map
    (fun t => (t.mem.slot 2, t.statusWord)) = some (6, 0x2) := by decide +kernel
/-- V-INV7: a at least m. -/
theorem test_modinv : (after (slotsState [(0, 25), (1, 11)] 40 1 []) 0x00004205).map
    (fun t => (t.mem.slot 2, t.statusWord)) = some (4, 0x2) := by decide +kernel
/-- V-INV15: ZeroModulus comes first. -/
theorem test_modinv_zero : (after (slotsState [(0, 4)] 40 1 []) 0x00004205).map State.statusWord = some 0x606 := by
  decide +kernel
/-- V-PG3. -/
theorem test_primegen : (after (slotsState [] 0 0x100000 [0]) 0x01000006).map
    (fun t => (t.mem.slot 0, t.candidates, t.statusWord)) = some (P0, 1, 0x2) := by decide +kernel
/-- V-PG6: the candidate 2^256 - 1 is drawn again, and the cap ends the search. -/
theorem test_primegen_exhausted : (after (slotsState [] 1 2 [M256, 2, 0, 2]) 0x01000006).map
    (fun t => (t.mem, t.candidates, t.statusWord, t.entropy.tape)) = some ([], 2, 0x506, []) := by decide +kernel
/-- Section 2.8: DERIVE b0, b0, b1 reads its sources from the snapshot. -/
theorem test_derive : (after (slotsState [(0, 61), (1, 53)] 40 1 []) 0x00004007).map
    (fun t => (t.mem.slot 0, t.mem.slot 1, t.mem.slot 2, t.statusWord)) = some (3233, 65537, 2753, 0x2) := by
  decide +kernel
/-- V-DER8. -/
theorem test_derive_no_inverse : (after (slotsState [(0, 65538), (1, 3)] 40 1 []) 0x00004207).map
    State.statusWord = some 0x306 := by decide +kernel
/-- V-KG6. -/
theorem test_keygen : (after (slotsState [] 0 0x100000 [0, 0]) 0x02000008).map
    (fun t => (t.mem.slot 0, t.mem.slot 1, t.candidates, t.statusWord)) = some (
      0x90000000000000000000000000000000000000000000000000000000000000018000000000000000000000000000000000000000000000000000000000000001,
      65537, 2, 0x2) := by decide +kernel
/-- V-KG4. -/
theorem test_keygen_exhausted : (after (slotsState [] 1 1 [0, 2]) 0x02000308).map
    (fun t => (t.mem, t.candidates, t.statusWord, t.entropy.tape)) = some ([], 1, 0x506, []) := by decide +kernel
/-- V-COD1. -/
theorem test_bitlen : (after (slotsState [(4, 0x6968)] 40 1 []) 0x00002009).map
    (fun t => (t.result, t.statusWord)) = some (15, 0x2) := by decide +kernel

/-! ## The host's side, against section 2.12 -/

/-- V-BUS1, V-BUS2, V-BUS3, V-BUS8. -/
theorem test_bus_registers :
    (State.reset.readOffset 0x000 4).resp = some (.readData 0x4D454531) ∧
    (State.reset.readOffset 0x000 1).resp = some (.busError 0) ∧
    (State.reset.readOffset 0x004 4).resp = some (.readData 0x00100008) ∧
    (State.reset.readOffset 0x024 4).resp = some (.busError 0) ∧
    (State.reset.readOffset 0xFFC 4).resp = some (.busError 0) := by decide
/-- V-BUS4 to V-BUS7. -/
theorem test_bus_slot_reads :
    let s := slotsState [(0, 0x6968)] 40 1 []
    (s.readOffset 0x1001 1).resp = some (.readData 0x69) ∧ (s.readOffset 0x1000 2).resp = some (.readData 0x6968) ∧
    (s.readOffset 0x1000 4).resp = some (.readData 0x6968) ∧ (s.readOffset 0x1001 2).resp = some (.busError 0) := by
  decide +kernel
/-- V-BUS16: the top bit of slot 0. -/
theorem test_bus_slot_write :
    (State.reset.writeOffset 0x11FC 4 0x80000000).mem = [(0x11FF, 0x80)] := by decide +kernel
/-- V-BUS10, V-BUS11, V-BUS14. -/
theorem test_bus_register_writes :
    (State.reset.writeOffset 0x008 4 0xFFFFFFFD).readReg .ctrl = 1 ∧
    (State.reset.writeOffset 0x018 4 0x12345678).readReg .kgRounds = 0x5678 ∧
    (slotsState [(0, 1)] 40 1 []).writeOffset 0x008 4 3 =
      { State.reset with resp := some .writeDone } := by decide +kernel
/-- Program P3: a write and an issue while BUSY are dropped, and STATUS reads 9. -/
theorem test_dropped_writes :
    let s := ((State.reset.issue 0x00004205).writeOffset 0x1600 4 99).writeOffset 0x010 4 0
    s.statusWord = 0x9 ∧ s.mem = [] ∧ s.readReg .cmd = 0x00004205 := by decide +kernel

/-! ## Witnesses: each meets the hypotheses of the obligation it is named after -/

/-- The word `w` running on the snapshot of `s`, with the agenda `evs` to come. -/
def busyWith (s : State) (w : Word) (evs : List Event) : State := { s.issue w with agenda := evs }

/-- A block with nothing in its slots and the agenda `evs`. -/
def idleWith (evs : List Event) : State := { State.reset with agenda := evs }

theorem witness_DecodeAndEncodeAgree :
    (Instr.derive 5 0 1).wellFormed = true ∧ decode 0x00004507 = .command (.derive 5 0 1) := by decide

theorem witness_EncryptAndDecryptExpand : (5 : Slot).val ≤ 5 := by decide

/-- The first and the last reserved opcode, and a state that meets `CompletesIllegal`'s hypotheses. -/
theorem witness_ReservedOpcodesAreIllegal :
    0x0A ≤ (opField 0x0000000A).toNat ∧ 0x0A ≤ (opField 0xFFFFFFFF).toNat ∧
    (busyWith State.reset 0x0000000A []).engineNext = true ∧ (busyWith State.reset 0x0000000A []).rst = false ∧
    (busyWith State.reset 0x0000000A []).phase = .busy 0x0000000A State.reset.takeSnapshot none := by decide

/-- One word for each clause. -/
theorem witness_NonzeroMustBeZeroIsIllegal :
    MustBeZeroViolated 0x00000100 ∧ MustBeZeroViolated 0x00000800 ∧ MustBeZeroViolated 0x00004000 ∧
    MustBeZeroViolated 0x00020000 ∧ MustBeZeroViolated 0xFF000000 ∧ MustBeZeroViolated 0x00100001 ∧
    MustBeZeroViolated 0x80000002 ∧ MustBeZeroViolated 0x00000203 ∧ MustBeZeroViolated 0x0000C003 ∧
    MustBeZeroViolated 0x00020004 ∧ MustBeZeroViolated 0x00100005 ∧ MustBeZeroViolated 0x00020007 ∧
    MustBeZeroViolated 0x01000806 ∧ MustBeZeroViolated 0x02004008 ∧ MustBeZeroViolated 0x00000109 ∧
    MustBeZeroViolated 0x0000F809 ∧ MustBeZeroViolated 0x00020009 ∧ MustBeZeroViolated 0x00100009 := by
  and_intros <;> (simp only [MustBeZeroViolated]; decide)

theorem witness_TripleBeyondLastSlotIsIllegal :
    (opField 0x00004607).toNat = 7 ∧ (rdField 0x00004607).val = 6 ∧
    (opField 0x02000708).toNat = 8 ∧ (rdField 0x02000708).val = 7 := by decide

theorem witness_StepRunsDecodedCommand :
    (busyWith State.reset 0x00000004 [.engine 7]).engineNext = true ∧
    (busyWith State.reset 0x00000004 [.engine 7]).rst = false ∧
    (busyWith State.reset 0x00000004 [.engine 7]).phase = .busy 0x00000004 State.reset.takeSnapshot none ∧
    decode 0x00000004 = .command (.gcd 0 0 0) := by decide

theorem witness_ModExpIsPowerModulo : 1 ≤ 1 ∧ 1 ≤ 497 := by decide

theorem witness_InverseIsTheUniqueLeast : 1 ≤ 11 ∧ gcdFn (25 % 11) 11 = 1 ∧ 4 < 11 ∧ 25 * 4 % 11 = 1 % 11 := by
  decide

theorem witness_OddPartSplitsExactly : 5 ≤ 5 ∧ 5 % 2 = 1 ∧ 5 ≤ 6 ∧ 6 % 2 = 0 := by decide

theorem witness_DrawsTakeEveryValueInRange : 3 < 2 ^ 2 ∧ 2 ≤ 3 ∧ 2 ≤ 2 ∧ 2 ≤ 3 := by decide

/-- A round that passes, and one that fails, also with a round after it. -/
theorem witness_RoundsDrawOneWitnessEach :
    5 ≤ 7 ∧ (millerRabin 7 1 { tape := [2], drawn := 0 }).1 = true ∧
    5 ≤ 9 ∧ 1 ≤ 2 ∧ (millerRabin 9 1 { tape := [2], drawn := 0 }).1 = false ∧
    (millerRabin 9 2 { tape := [2], drawn := 0 }).1 = false := by decide

/-- The least odd and even n, and the composite 341 of V-MR10 and V-MR11, which passes with 4 and fails with 2. -/
theorem witness_RoundsPassAtOneOrMinusOne :
    5 ≤ 5 ∧ 5 % 2 = 1 ∧ 6 ≤ 6 ∧ 6 % 2 = 0 ∧ 5 ≤ 341 ∧ 341 % 2 = 1 ∧
    roundPasses 341 (oddPart 341).1 (oddPart 341).2 4 = true ∧
    roundPasses 341 (oddPart 341).1 (oddPart 341).2 2 = false := by decide +kernel

theorem witness_PrimesPassUnderEveryDraw : Nat.Prime 2 ∧ Nat.Prime 101 := by norm_num

theorem witness_CandidatesHaveTheirTopBits : 256 ∈ Config.primeSizes ∧ 2048 ∈ Config.primeSizes := by decide

theorem witness_FoundPrimesKeepTheirShape : 256 ∈ Config.primeSizes ∧
    primeSearch 256 0 1 0 { tape := [0], drawn := 0 } = (.found P0 1, { tape := [], drawn := 1 }) := by
  decide +kernel

theorem witness_CappedSearchEndsWithinTheCap : 1 ≠ 0 := by decide

theorem witness_UncappedSearchResumesWhereItStopped :
    searchLoop 256 1 0 1 P0 0 { tape := [2], drawn := 0 } = (.running (P0 + 2) 1, { tape := [], drawn := 1 }) := by
  decide +kernel

theorem witness_ModexpWritesThePower : (slotsState [(2, 1)] 40 1 []).src 2 ≠ 0 := by decide +kernel

theorem witness_ZeroModulusIsReported : State.reset.src 0 = 0 := by decide +kernel

theorem witness_CipherTransformsItsInput :
    (slotsState [(3, 36862), (0, 36863)] 40 1 []).src 3 < (slotsState [(3, 36862), (0, 36863)] 40 1 []).src 0 := by
  decide +kernel

/-- The boundary: the input equals the modulus. -/
theorem witness_CipherRejectsLargeInput :
    (slotsState [(0, 36863)] 40 1 []).src 0 ≠ 0 ∧
    (slotsState [(0, 36863)] 40 1 []).src 0 ≤ (slotsState [(0, 36863)] 40 1 []).src 0 := by decide +kernel

/-- gcd(a, 0) and gcd(0, b). -/
theorem witness_GcdWritesTheDivisor :
    (slotsState [(0, 7)] 40 1 []).src 1 = 0 ∧ (slotsState [(1, 7)] 40 1 []).src 0 = 0 := by decide +kernel

/-- m = 1 among them. -/
theorem witness_ModinvWritesTheInverse :
    (slotsState [(0, 5), (1, 1)] 40 1 []).src 1 ≠ 0 ∧
    Nat.gcd ((slotsState [(0, 5), (1, 1)] 40 1 []).src 0) ((slotsState [(0, 5), (1, 1)] 40 1 []).src 1) = 1 := by
  decide +kernel

theorem witness_NoInverseIsReported :
    ((slotsState [(0, 10), (1, 4)] 40 1 []).src 1 ≠ 0 ∧
      Nat.gcd ((slotsState [(0, 10), (1, 4)] 40 1 []).src 0) ((slotsState [(0, 10), (1, 4)] 40 1 []).src 1) ≠ 1) ∧
    (2 : Slot).val ≤ 5 ∧ (slotsState [(0, 65538), (1, 3)] 40 1 []).src 0 = 65538 ∧
    (slotsState [(0, 65538), (1, 3)] 40 1 []).src 1 = 3 ∧ 65538 * 3 < 2 ^ 4096 ∧
    Nat.gcd 65537 ((65538 - 1) * (3 - 1)) ≠ 1 := by decide +kernel

/-- A search from its start, and one that goes on. -/
theorem witness_PrimegenCommitsTheFoundPrime :
    (256 : Half).toNat ∈ Config.primeSizes ∧
    (let s := slotsState [] 0 1 [0]
     s.leftRunning = none ∧ searchTurn 256 s.roundsOperand s.capOperand s.burst s.leftRunning s.entropy =
       (.found P0 1, { tape := [], drawn := 1 })) ∧
    (let q : Search := { first := none, candidate := P0, count := 3 }
     let s := (busyWith (slotsState [] 0 0 []) 0x01000006 []).suspend q
     s.leftRunning = some q ∧ (3 * 2 ^ (256 - 2) ≤ q.candidate ∧ q.candidate < 2 ^ 256 ∧ q.candidate % 2 = 1) ∧
     searchTurn 256 s.roundsOperand s.capOperand s.burst s.leftRunning s.entropy =
       (.found P0 4, { tape := [], drawn := 0 })) := by decide +kernel

/-- Sizes beside the legal ones, the halves and doubles among them. -/
theorem witness_IllegalSizesAreReported :
    (0 : Half).toNat ∉ [256, 512, 1024, 2048] ∧ (4096 : Half).toNat ∉ [256, 512, 1024, 2048] ∧ (5 : Slot).val ≤ 5 ∧
    (768 : Half).toNat ∉ [512, 1024, 2048, 4096] ∧ (256 : Half).toNat ∉ [512, 1024, 2048, 4096] := by decide

/-- V-DER1, and V-DER5 with φ = 1. -/
theorem witness_DerivedKeySatisfiesItsCongruence :
    keyDerive 61 53 = .ok 3233 65537 2753 ∧ 2 ≤ (61 - 1) * (53 - 1) ∧
    keyDerive 2 2 = .ok 4 65537 0 ∧ (2 - 1) * (2 - 1) = 1 := by decide +kernel

theorem witness_DeriveWritesTheTriple :
    (slotsState [(0, 61), (1, 53)] 40 1 []).src 0 = 61 ∧ (slotsState [(0, 61), (1, 53)] 40 1 []).src 1 = 53 ∧
    61 * 53 < 2 ^ 4096 ∧ Nat.gcd 65537 ((61 - 1) * (53 - 1)) = 1 ∧ (5 : Slot).val ≤ 5 := by decide +kernel

/-- p below 2, q below 2, and V-DER11's product of 2^4096. -/
theorem witness_DeriveReportsOperandRange :
    (slotsState [(0, 1), (1, 5)] 40 1 []).src 0 < 2 ∧ (slotsState [(0, 5), (1, 1)] 40 1 []).src 1 < 2 ∧
    2 ^ 4096 ≤ (slotsState [(0, 2 ^ 2048), (1, 2 ^ 2048)] 40 1 []).src 0 *
      (slotsState [(0, 2 ^ 2048), (1, 2 ^ 2048)] 40 1 []).src 1 := by decide +kernel

/-- V-KG6 for the first clause, from the start and going on with p; the second goes on with q. -/
theorem witness_KeygenCommitsTheTriple :
    (0 : Slot).val ≤ 5 ∧ (512 : Half).toNat ∈ Config.keySizes ∧ Nat.gcd 65537 ((P0 - 1) * (P0 - 1)) = 1 ∧
    (let s := slotsState [] 0 1 [0, 0]
     s.leftRunning = none ∧
     searchTurn 256 s.roundsOperand s.capOperand s.burst s.leftRunning s.entropy =
       (.found P0 1, { tape := [0], drawn := 1 }) ∧
     primeSearch 256 s.roundsOperand s.capOperand s.burst { tape := [0], drawn := 1 } =
       (.found P0 1, { tape := [], drawn := 2 })) ∧
    (let l : Search := { first := none, candidate := P0, count := 3 }
     let s := (busyWith (slotsState [] 0 0 [0]) 0x02000008 []).suspend l
     s.leftRunning = some l ∧ (3 * 2 ^ (256 - 2) ≤ P0 ∧ P0 < 2 ^ 256 ∧ P0 % 2 = 1) ∧
     searchTurn 256 s.roundsOperand s.capOperand s.burst s.leftRunning s.entropy =
       (.found P0 4, { tape := [0], drawn := 0 })) ∧
    (let l : Search := { first := some (P0, 1), candidate := P0, count := 3 }
     let s := (busyWith (slotsState [] 0 0 []) 0x02000008 []).suspend l
     s.leftRunning = some l ∧
     searchTurn 256 s.roundsOperand s.capOperand s.burst (some l) s.entropy =
       (.found P0 4, { tape := [], drawn := 0 })) := by decide +kernel

/-- A 256-bit candidate that is 1 modulo 65537. -/
def PN : Nat := 0xc00000000000000000000000000000000000000000000000000000000162c163

/-- An exhausted search of PRIMEGEN, of KEYGEN for p, for q, and V-KG5's PN with no inverse (ROUNDS = 0 here). -/
theorem witness_SearchErrorsAreReported :
    (let s := slotsState [] 1 1 [0, 2]
     searchTurn 256 s.roundsOperand s.capOperand s.burst s.leftRunning s.entropy =
       (.exhausted 1, { tape := [], drawn := 2 })) ∧
    (let s := slotsState [] 1 1 [P25, 2, 0, 2]
     searchTurn 256 s.roundsOperand s.capOperand s.burst s.leftRunning s.entropy =
       (.found P25 1, { tape := [0, 2], drawn := 2 }) ∧
     primeSearch 256 s.roundsOperand s.capOperand s.burst { tape := [0, 2], drawn := 2 } =
       (.exhausted 1, { tape := [], drawn := 4 })) ∧
    (let s := slotsState [] 0 1 [PN, 0]
     searchTurn 256 s.roundsOperand s.capOperand s.burst s.leftRunning s.entropy =
       (.found PN 1, { tape := [0], drawn := 1 }) ∧
     primeSearch 256 s.roundsOperand s.capOperand s.burst { tape := [0], drawn := 1 } =
       (.found P0 1, { tape := [], drawn := 2 }) ∧
     (3 * 2 ^ (256 - 2) ≤ PN ∧ PN < 2 ^ 256 ∧ PN % 2 = 1) ∧ Nat.gcd 65537 ((PN - 1) * (P0 - 1)) ≠ 1) ∧
    (let l : Search := { first := some (PN, 1), candidate := P0, count := 3 }
     let s := (busyWith (slotsState [] 0 0 []) 0x02000008 []).suspend l
     s.leftRunning = some l ∧
     searchTurn 256 s.roundsOperand s.capOperand s.burst (some l) s.entropy =
       (.found P0 4, { tape := [], drawn := 0 })) := by
  decide +kernel

/-- V-PG11's first candidate: an uncapped PRIMEGEN still busy after an engine turn. -/
theorem witness_UnfinishedSearchKeepsTheCommandBusy :
    (busyWith (slotsState [] 1 0 [M256, 2, 0]) 0x01000006 []).phase =
      .busy 0x01000006 { mem := [], rounds := 1, cap := 0 } none ∧
    (nextOf (exec (.primegen 0 256) (busyWith (slotsState [] 1 0 [M256, 2, 0]) 0x01000006 []))).map State.busy =
      some true := by decide +kernel

theorem witness_BitlenWritesTheLength : State.reset.src 0 = 0 ∧ (slotsState [(0, 1)] 40 1 []).src 0 ≠ 0 := by
  decide +kernel

theorem witness_CommandsWriteOnlyTheirDestinations :
    nextOf (exec .nop State.reset) = some (State.reset.completeOk [] none none) ∧
    writesResult .nop = false ∧ searches .nop = false := by decide

theorem witness_ErrorsCommitNothing :
    (nextOf (exec (.modexp 3 0 1 2) State.reset)).map State.err = some true ∧ State.reset.err = false ∧
    searches (.modexp 3 0 1 2) = false := by decide +kernel

/-- The host wrote slot 5, KG_ROUNDS and SEARCH_CAP since the issue; BITLEN has a result, GCD a destination, PRIMEGEN a
count. -/
theorem witness_CommandsReadOnlyTheirSnapshot :
    let s₁ := busyWith (slotsState [(0, 6)] 0 1 [0]) 0x00000009 []
    let s₂ := { s₁ with mem := Memory.commit [] [(0, 9), (5, 1)], kgRounds := 7, searchCap := 9 }
    (s₁.busy = true ∧ s₁.phase = s₂.phase ∧ s₁.entropy = s₂.entropy ∧ s₁.burst = s₂.burst) ∧
    [Instr.bitlen 0, .gcd 2 0 1, .primegen 1 256].all (fun i => i.wellFormed &&
      (nextOf (exec i s₁)).any (fun t => !t.busy && !t.err) && (nextOf (exec i s₂)).any (fun t => !t.busy && !t.err)) =
        true := by decide +kernel

/-- A capped search, and an uncapped command that does not search. -/
theorem witness_CappedCommandsComplete :
    (busyWith (slotsState [] 0 1 []) 0x01000006 []).engineNext = true ∧
    (busyWith (slotsState [] 0 1 []) 0x01000006 []).rst = false ∧
    (busyWith (slotsState [] 0 1 []) 0x01000006 []).phase = .busy 0x01000006 { mem := [], rounds := 0, cap := 1 } none ∧
    (1 : Word) ≠ 0 ∧ decode 0x00000009 = .command (.bitlen 0) ∧ searches (.bitlen 0) = false := by decide

theorem witness_CmdWriteIssuesOrIsDropped :
    (idleWith [issueEvent 9]).agenda = issueEvent 9 :: [] ∧ (idleWith [issueEvent 9]).rst = false ∧
    (idleWith [issueEvent 9]).busy = false ∧ (busyWith State.reset 0 [issueEvent 9]).agenda = issueEvent 9 :: [] ∧
    (busyWith State.reset 0 [issueEvent 9]).busy = true := ⟨rfl, rfl, rfl, rfl, rfl⟩

/-- The last word, halfword and byte of slot 7. -/
theorem witness_SlotWriteLandsOrIsDropped :
    (508 % 4 = 0 ∧ 508 < 512) ∧ (510 % 2 = 0 ∧ 510 < 512) ∧ (511 % 1 = 0 ∧ 511 < 512) ∧
    (idleWith [.write (Config.base + (slotBase 7 + 508)) 4 1]).agenda =
      .write (Config.base + (slotBase 7 + 508)) 4 1 :: [] ∧
    (idleWith [.write (Config.base + (slotBase 7 + 508)) 4 1]).busy = false ∧
    (busyWith State.reset 0 [.write (Config.base + (slotBase 7 + 511)) 1 1]).agenda =
      .write (Config.base + (slotBase 7 + 511)) 1 1 :: [] ∧
    (busyWith State.reset 0 [.write (Config.base + (slotBase 7 + 511)) 1 1]).busy = true :=
  ⟨by decide, by decide, by decide, rfl, rfl, rfl, rfl⟩

/-- A busy block too: `witness_StepKeepsTheInvariant` has one that meets the invariant. -/
theorem witness_SlotReadReturnsItsBits :
    (508 % 4 = 0 ∧ 508 < 512) ∧ (510 % 2 = 0 ∧ 510 < 512) ∧ (511 % 1 = 0 ∧ 511 < 512) ∧
    (idleWith [.read (Config.base + (slotBase 7 + 511)) 1]).agenda = .read (Config.base + (slotBase 7 + 511)) 1 :: [] ∧
    (idleWith [.read (Config.base + (slotBase 7 + 511)) 1]).rst = false ∧
    (busyWith State.reset 0 [.read (Config.base + (slotBase 7 + 511)) 1]).phase =
      .busy 0 State.reset.takeSnapshot none :=
  ⟨by decide, by decide, by decide, rfl, rfl, rfl⟩

theorem witness_RegisterReadsAreIdempotent :
    (idleWith [rregEvent .candidates]).agenda = rregEvent .candidates :: [] ∧
    (idleWith [rregEvent .candidates]).rst = false := ⟨rfl, rfl⟩

/-- One access for each ground of R64: a misalignment, a narrow register access, the ends of the reserved range, and a
size. -/
theorem witness_BadAccessesGetABusError :
    (0x1002 < 0x2000 ∧ (Config.base + 0x1002) % 4 ≠ 0) ∧ (2 ≠ 4 ∧ 0x022 < 0x1000) ∧
    (0x24 ≤ 0x24 ∧ 0x24 ≤ 0xFFF) ∧ (0x24 ≤ 0xFFC ∧ 0xFFC ≤ 0xFFF) ∧ (0x1000 < 0x2000 ∧ 3 ≠ 1 ∧ 3 ≠ 2 ∧ 3 ≠ 4) ∧
    (idleWith [.write (Config.base + 0xFFC) 4 0]).agenda = .write (Config.base + 0xFFC) 4 0 :: [] ∧
    (idleWith [.read (Config.base + 0x1002) 4]).agenda = .read (Config.base + 0x1002) 4 :: [] :=
  ⟨⟨by decide, by rw [base_add_mod _ (by decide)]; decide⟩, by decide, by decide, by decide, by decide, rfl, rfl⟩

/-- The address after the window. -/
theorem witness_ForeignAccessesAreNotTheBlocks :
    Config.base + 0x1FFF < Config.base + 0x2000 ∧
    (idleWith [.read (Config.base + 0x2000) 4]).agenda = .read (Config.base + 0x2000) 4 :: [] ∧
    (idleWith [.write (Config.base + 0x2000) 4 1]).agenda = .write (Config.base + 0x2000) 4 1 :: [] :=
  ⟨by omega, rfl, rfl⟩

theorem witness_StatusWriteClearsWhatItNames :
    (idleWith [wregEvent .status 0xE]).agenda = wregEvent .status 0xE :: [] ∧
    (idleWith [wregEvent .status 0xE]).rst = false := ⟨rfl, rfl⟩

theorem witness_ReadOnlyRegistersIgnoreWrites :
    (idleWith [wregEvent .id 1]).agenda = wregEvent .id 1 :: [] ∧
    (idleWith [wregEvent .candidates 1]).agenda = wregEvent .candidates 1 :: [] := ⟨rfl, rfl⟩

theorem witness_ConfigurationWritesWaitForTheNextIssue :
    (busyWith State.reset 0 [wregEvent .kgRounds 1]).agenda = wregEvent .kgRounds 1 :: [] ∧
    (busyWith State.reset 0 [wregEvent .searchCap 1]).agenda = wregEvent .searchCap 1 :: [] ∧
    (busyWith State.reset 0 [wregEvent .searchCap 1]).rst = false := ⟨rfl, rfl, rfl⟩

theorem witness_CtrlWriteStoresOrResets :
    (busyWith State.reset 0 [wregEvent .ctrl 3]).agenda = wregEvent .ctrl 3 :: [] ∧ (3 : Word).getLsbD 1 = true ∧
    (idleWith [wregEvent .ctrl 1]).agenda = wregEvent .ctrl 1 :: [] ∧ (1 : Word).getLsbD 1 = false ∧
    (idleWith [wregEvent .ctrl 1]).rst = false := ⟨rfl, by decide, rfl, by decide, rfl⟩

theorem witness_ResetLineHoldsTheBlock :
    (busyWith State.reset 0 [.rst true]).agenda = .rst true :: [] ∧
    { idleWith [.rst false] with rst := true }.agenda = .rst false :: [] ∧ isBusError 0x1000 4 = false ∧
    { idleWith [.write (Config.base + 0x1000) 4 1] with rst := true }.agenda =
      .write (Config.base + 0x1000) 4 1 :: [] ∧
    { idleWith [.read (Config.base + 0x1FFF) 1] with rst := true }.agenda =
      .read (Config.base + 0x1FFF) 1 :: [] ∧ isBusError 0x1FFF 1 = false := ⟨rfl, rfl, rfl, rfl, rfl, rfl⟩

/-- A running NOP, one step from its completion. -/
theorem witness_StepKeepsTheInvariant (evs : List Event) : (busyWith State.reset 0 evs).Inv ∧
    nextOf (step (busyWith State.reset 0 [])) = some ((busyWith State.reset 0 []).completeOk [] none none) := by
  refine ⟨⟨rfl, ⟨fun h => ?_, fun h => absurd rfl h⟩, Nat.zero_le _, Nat.zero_le _, fun w snap q h => ?_,
    fun w snap q h => ?_, fun h => ?_⟩, by decide⟩ <;> cases h
  exact ⟨rfl, rfl, rfl, rfl⟩

/-- The engine waits for its turn while the host writes KG_ROUNDS. -/
theorem witness_NothingIsVisibleBeforeCompletion :
    ∃ t, step (busyWith State.reset 9 [wregEvent .kgRounds 1]) = .next t ∧
      (busyWith State.reset 9 [wregEvent .kgRounds 1]).phase = .busy 9 State.reset.takeSnapshot none ∧
      t.phase = .busy 9 State.reset.takeSnapshot none := ⟨_, step_wreg rfl rfl, rfl, rfl⟩

/-- A completed NOP whose DONE the host clears. -/
theorem witness_DoneStaysUntilTheHostActs :
    ∃ t, step { idleWith [wregEvent .status 2] with done := true } = .next t ∧
      { idleWith [wregEvent .status 2] with done := true }.done = true ∧ t.done = false :=
  ⟨_, step_wreg rfl rfl, rfl, rfl⟩

/-- Key K2 of section 2.3: 65 encrypts to 2790. -/
theorem witness_DecryptUndoesEncrypt :
    Nat.Prime 61 ∧ Nat.Prime 53 ∧ 61 ≠ 53 ∧ keyDerive 61 53 = .ok 3233 65537 2753 ∧
    (slotsState [(0, 3233), (1, 65537), (3, 65)] 40 1 []).src 3 = 65 ∧
    (slotsState [(0, 3233), (1, 65537), (3, 65)] 40 1 []).src 0 = 3233 ∧
    (slotsState [(0, 3233), (1, 65537), (3, 65)] 40 1 []).src 1 = 65537 ∧
    (nextOf (exec (.cipher 4 3 0 1) (slotsState [(0, 3233), (1, 65537), (3, 65)] 40 1 []))).map
      (fun t => t.mem.slot 4) = some 2790 ∧
    (slotsState [(0, 3233), (2, 2753), (4, 2790)] 40 1 []).src 2 = 2753 ∧
    (slotsState [(0, 3233), (2, 2753), (4, 2790)] 40 1 []).src 4 = 2790 := by
  refine ⟨by norm_num, by norm_num, ?_⟩
  decide +kernel

/-- V-COD1, and V-COD3's trailing zero byte. -/
theorem witness_CodecRoundTrips :
    2 ^ 4095 < 2 ^ 4096 ∧ encodeMessage [0x68, 0x69] = some 0x6968 ∧ encodeMessage [0x61, 0x00] = some 0x61 := by
  decide +kernel

end Sys2Proof.Tests
end

section
/-! PROOFS. The arithmetic primitives, the draws and GCD: what R4, R6, R9, R10 and R150 say of them. -/

namespace Sys2Proof.Machine

/-! ## The power modulo m (R4) -/

theorem modExpFn_eq {b x m : Nat} (hm : 0 < m) : modExpFn b x m = b ^ x % m := by
  have hpow : modExpFn b x m ≡ b ^ x [MOD m] :=
    calc modExpFn b x m
      _ ≡ 1 % m * (b % m) ^ x [MOD m] := modExpLoop_modEq (lt_two_pow_bitlen x)
      _ ≡ 1 * b ^ x [MOD m] := (Nat.mod_modEq 1 m).mul ((Nat.mod_modEq b m).pow x)
      _ = b ^ x := one_mul _
  rw [← Nat.mod_eq_of_lt (modExpFn_lt hm)]
  exact hpow

/-- Settles O8: the loop's product is congruent to the power, and below m. -/
theorem modExpIsPowerModulo : Obligations.ModExpIsPowerModulo := fun _ _ _ hm => modExpFn_eq hm

/-! ## The inverse modulo m (R6) -/

theorem mul_invFn_mod {a m : Nat} (hm : 0 < m) (hg : Nat.gcd a m = 1) : a * invFn a m % m = 1 % m := by
  have h : invFn a m * a ≡ Nat.gcd m (a % m) [MOD m] := invFn_mul_modEq hm
  rwa [mul_comm, Nat.gcd_comm, show Nat.gcd (a % m) m = 1 from (gcdFn_mod a m).trans hg] at h

/-- What is coprime to m has at most one inverse below m. -/
theorem mul_mod_inj {a m x y : Nat} (hg : Nat.gcd a m = 1) (hx : x < m) (hy : y < m)
    (h : a * x % m = a * y % m) : x = y :=
  (Nat.ModEq.cancel_left_of_coprime (Nat.gcd_comm m a ▸ hg) h).eq_of_lt_of_lt hx hy

/-- Settles O9: the Euclidean loop ends at the gcd, which is 1, and a coprime factor cancels. -/
theorem inverseIsTheUniqueLeast : Obligations.InverseIsTheUniqueLeast := by
  refine ⟨fun a m hm hg => ?_, fun a => Nat.lt_one_iff.1 (invFn_lt Nat.one_pos)⟩
  rw [gcdFn_mod] at hg
  have hinv := mul_invFn_mod hm hg
  exact ⟨invFn_lt hm, hinv, fun x hx h => mul_mod_inj hg hx (invFn_lt hm) (h.trans hinv.symm)⟩

/-! ## Draws (R9, R10) -/

/-- A tape whose head is a value of `DrawBits`'s range answers that value. -/
theorem Entropy.drawBits_of_head {k r n : Nat} (rest : List Nat) (h : r < 2 ^ k) :
    (Entropy.drawBits { tape := r :: rest, drawn := n } k).1 = r := Nat.mod_eq_of_lt h

/-- A tape whose head is a value of `DrawWitness`'s range answers that value. -/
theorem Entropy.drawWitness_of_head {lo hi a n : Nat} (rest : List Nat) (h : lo ≤ a) (h' : a ≤ hi) :
    (Entropy.drawWitness { tape := a :: rest, drawn := n } lo hi).1 = a := intoRange_of_mem h h'

theorem Entropy.drawWitness_bounds (e : Entropy) {lo hi : Nat} (h : lo ≤ hi) :
    lo ≤ (e.drawWitness lo hi).1 ∧ (e.drawWitness lo hi).1 ≤ hi := intoRange_bounds h e.next.1

/-- Settles O11: the bounds hold of every source, and a tape that starts with the wanted value gives it. -/
theorem drawsTakeEveryValueInRange : Obligations.DrawsTakeEveryValueInRange := by
  refine ⟨fun e k => ⟨e.drawBits_lt k, e.drawBits_drawn k⟩, fun k r n hr => ?_, fun e lo hi h => ?_,
    fun lo hi a n hlo hhi => ?_⟩
  · exact ⟨{ tape := [r], drawn := n }, rfl, Entropy.drawBits_of_head [] hr⟩
  · obtain ⟨hlo, hhi⟩ := e.drawWitness_bounds h
    exact ⟨hlo, hhi, e.drawWitness_drawn lo hi⟩
  · exact ⟨{ tape := [a], drawn := n }, rfl, Entropy.drawWitness_of_head [] hlo hhi⟩

/-! ## GCD (R150, R151) -/

/-- The gcd of two values that fit a slot fits a slot, also where one of them is 0. -/
theorem gcd_lt_of_lt {a b n : Nat} (ha : a < n) (hb : b < n) : Nat.gcd a b < n := by
  rcases Nat.eq_zero_or_pos a with rfl | hpos
  · rwa [Nat.gcd_zero_left]
  · exact (Nat.gcd_le_left b hpos).trans_lt ha

/-- Settles O27: GCD always completes, and its destination holds the gcd, which fits a slot. -/
theorem gcdWritesTheDivisor : Obligations.GcdWritesTheDivisor := by
  intro s rd ra rb
  refine ⟨_, exec_gcd s rd ra rb, okFrame_of_eq rfl rfl, ?_⟩
  rw [slot_of_completeOk rfl (gcd_lt_of_lt (s.src_lt ra) (s.src_lt rb))]
  refine ⟨⟨Nat.gcd_dvd_left _ _, Nat.gcd_dvd_right _ _, fun _ => Nat.dvd_gcd⟩, fun hb => ?_, fun ha => ?_,
    rfl, rfl, rfl⟩
  · rw [hb, Nat.gcd_zero_right]
  · rw [ha, Nat.gcd_zero_left]

end Sys2Proof.Machine
end

section
/-! PROOFS. The host's writes of the registers and the reset values: what R23, R29, R30, R33, R34, R36 and R40 say of
them. -/

namespace Sys2Proof.Machine

open State

/-- BUSY is bit 0 of STATUS: DONE, ERR, OVR and ERRCODE stand above it (R30). -/
theorem statusWord_getLsbD_zero (s : State) : s.statusWord.getLsbD 0 = s.busy := by
  have hbit : ∀ b k, (flagBit b k).getLsbD 0 = (b && decide (k = 0)) := fun b k => by
    cases b <;> cases k <;> simp [flagBit]
  simp only [statusWord, BitVec.getLsbD_or, BitVec.getLsbD_shiftLeft, hbit]
  simp

theorem Memory.readLE_nil (a n : Nat) : Memory.readLE [] a n = 0 := by
  induction n generalizing a with
  | zero => rfl
  | succ n ih => rw [Memory.readLE, ih, Memory.readByte_nil]; rfl

/-! ## One step on a register write -/

/-- The step on a register write, from what the write makes of the state (R69). -/
theorem step_wreg_eq {s t : State} {r : Reg} {v : Word} {rest : List Event} (h : s.agenda = wregEvent r v :: rest)
    (hr : s.rst = false) (hw : { s with agenda := rest }.writeReg v r = t) :
    step s = .next (t.respond .writeDone) := by rw [step_wreg h hr, hw]

/-- A write of a register that ignores it changes only the response (R36), also while RST is asserted (R280). -/
theorem step_wreg_ignored {s : State} {r : Reg} {v : Word} {rest : List Event}
    (h : s.agenda = wregEvent r v :: rest) (hi : ∀ s' : State, s'.writeReg v r = s') :
    step s = .next ({ s with agenda := rest }.respond .writeDone) := by
  by_cases hr : s.rst = true
  · rw [step_write h, hostWrite_base (r.offset_lt.trans (by decide)), State.writeOffset, isBusError_reg]
    exact congrArg _ (if_pos hr)
  · exact step_wreg_eq h (Bool.eq_false_iff.2 hr) (hi _)

/-! ## The obligations on register writes and reset values -/

/-- Settles O43: the phase decides between the drop and the issue. -/
theorem cmdWriteIssuesOrIsDropped : Obligations.CmdWriteIssuesOrIsDropped := by
  refine ⟨fun s => by rw [statusWord_getLsbD_zero, busy_eq_true_iff], fun s w rest h hr => ?_⟩
  by_cases hb : s.busy = true
  · exact ⟨_, step_wreg_eq h hr (if_pos hb), rfl, rfl, fun _ => rfl, fun hf => absurd hb (hf ▸ Bool.false_ne_true)⟩
  · exact ⟨_, step_wreg_eq h hr (if_neg hb), rfl, rfl, fun ht => absurd ht hb, fun _ => rfl⟩

/-- Settles O49: `writeStatus` field by field. -/
theorem statusWriteClearsWhatItNames : Obligations.StatusWriteClearsWhatItNames := by
  intro s v rest h hr
  refine ⟨_, step_wreg h hr, rfl, rfl, ?_⟩
  simp only [Bool.if_false_left, Bool.decide_eq_true, Bool.and_comm (!_)]
  rfl

/-- Settles O51: each of the two registers takes the write and leaves the phase alone. -/
theorem configurationWritesWaitForTheNextIssue : Obligations.ConfigurationWritesWaitForTheNextIssue :=
  fun _ _ _ hr => ⟨fun h => ⟨_, step_wreg h hr, rfl, rfl, rfl, rfl⟩, fun h => ⟨_, step_wreg h hr, rfl, rfl, rfl, rfl⟩⟩

/-- Settles O52: SRST decides between the reset and the store of IRQ_EN. -/
theorem ctrlWriteStoresOrResets : Obligations.CtrlWriteStoresOrResets := by
  intro s v rest h hr
  by_cases hv : v.getLsbD 1 = true
  · refine ⟨_, step_wreg_eq h hr (if_pos hv), rfl, rfl, fun _ => ?_, fun hf => absurd hv (hf ▸ Bool.false_ne_true)⟩
    simp only [resetBlock, hr]
    rfl
  · exact ⟨_, step_wreg_eq h hr (if_neg hv), rfl, rfl, fun ht => absurd ht hv, fun _ => rfl⟩

/-- Settles O50: `writeReg` gives each of the four back unchanged. -/
theorem readOnlyRegistersIgnoreWrites : Obligations.ReadOnlyRegistersIgnoreWrites := by
  intro s r v rest hreg h
  refine ⟨_, step_wreg_ignored h ?_, rfl, rfl, rfl⟩
  rcases hreg with rfl | rfl | rfl | rfl <;> exact fun _ => rfl

/-- Settles O54: an unlisted byte reads 0, and every register is a constant. -/
theorem resetValuesAreTheSpecs : Obligations.ResetValuesAreTheSpecs :=
  ⟨rfl, rfl, rfl, fun _ => Memory.readLE_nil _ _, rfl, by decide, rfl, rfl, rfl, rfl, rfl, rfl, rfl⟩

end Sys2Proof.Machine
end

section
/-! PROOFS. What a command writes (R22) and what it reads (R24): a command's turn is a function of its inputs, the
snapshot, the search left running, the entropy source and `burst`. -/

namespace Sys2Proof.Machine

open State

/-- Settles O39: each of the three ends has this frame. -/
theorem commandsWriteOnlyTheirDestinations : Obligations.CommandsWriteOnlyTheirDestinations := by
  intro i s t h
  rcases ends_of_exec h with ⟨e, ws, r, c, hc⟩ | ⟨e, k, c, hr⟩ | ⟨e, q, hq⟩
  · have hframe := okFrame_of_eq hc.eq hc.slots
    refine ⟨hframe.bytes, hframe.host, fun hn => ?_, fun hn => ?_⟩
    · obtain rfl : r = none := by simpa [hn] using hc.result
      rw [hc.eq]; rfl
    · obtain rfl : c = none := by simpa [hn] using hc.cand
      rw [hc.eq]; rfl
  · rw [hr.eq]
    refine ⟨fun _ _ => rfl, keepsHostState_raise s e k c, fun _ => rfl, fun hn => ?_⟩
    obtain rfl : c = none := by simpa [hn] using hr.cand
    rfl
  · rw [hq.eq]
    exact ⟨fun _ _ => rfl, keepsHostState_suspend s e q, fun _ => rfl, fun _ => rfl⟩

/-! ## How a turn ends, apart from the state it ends on -/

/-- What a command has computed when its engine turn ends: the slot writes, RESULT and CANDIDATES of a completion, an
error, or the search it leaves running; `e` is the entropy source after its draws. -/
inductive TurnEnd where
  | ok (e : Entropy) (ws : List (Slot × Nat)) (r c : Option Word)
  | error (e : Entropy) (k : ErrKind) (c : Option Word)
  | left (e : Entropy) (q : Search)

/-- The state after the turn. -/
def TurnEnd.on (s : State) : TurnEnd → State
  | .ok e ws r c => (s.withEntropy e).completeOk ws r c
  | .error e k c => (s.withEntropy e).raise k c
  | .left e q => (s.withEntropy e).suspend q

/-- A search that the command `i` may leave running (R133, R182). -/
def Search.FitsCommand (q : Search) : Instr → Prop
  | .primegen _ bits => bits.toNat ∈ Config.primeSizes ∧ q.first = none ∧ InCandidateRange bits.toNat q.candidate
  | .keygen _ totalBits =>
      totalBits.toNat ∈ Config.keySizes ∧ InCandidateRange (totalBits.toNat / 2) q.candidate ∧
        ∀ f, q.first = some f → InCandidateRange (totalBits.toNat / 2) f.1
  | _ => False

/-- The search that the turn of `i` goes on with, if there is one, fits it. -/
def State.LeftFits (s : State) (i : Instr) : Prop := ∀ q, s.leftRunning = some q → q.FitsCommand i

theorem Search.fits_iff {q : Search} {w : Word} {i : Instr} (h : decode w = .command i) :
    q.Fits w ↔ q.FitsCommand i := by
  unfold Search.Fits
  rw [h]
  cases i <;> exact Iff.rfl

/-- The end belongs to the command `i`: it writes the command's destinations, RESULT and CANDIDATES where the command
has them, and a search it leaves running fits it if `Q`, the fit of the search it went on with. -/
def TurnEnd.Belongs (i : Instr) (Q : Prop) : TurnEnd → Prop
  | .ok _ ws r c => ws.map (·.1) = destinations i ∧ r.isSome = writesResult i ∧ c.isSome = searches i
  | .error _ _ c => i.wellFormed = true → searches i = true → c.isSome = true
  | .left _ q => Q → q.FitsCommand i

/-- Two states that a command cannot tell apart (R24). -/
structure SameInputs (s t : State) : Prop where
  snapshot : s.snapshot = t.snapshot
  search : s.search = t.search
  entropy : s.entropy = t.entropy
  burst : s.burst = t.burst

section
variable {s t : State} (h : SameInputs s t)
include h

theorem SameInputs.src (i : Slot) : t.src i = s.src i := by rw [State.src, State.src, h.snapshot]

theorem SameInputs.leftRunning : t.leftRunning = s.leftRunning := by
  rw [State.leftRunning, State.leftRunning, State.capOperand, State.capOperand, h.snapshot, h.search]

/-- The search of the turn, from any source. -/
theorem SameInputs.searchTurn (bits : Nat) (left : Option Search) (e : Entropy) :
    searchTurn bits t.roundsOperand t.capOperand t.burst left e =
      searchTurn bits s.roundsOperand s.capOperand s.burst left e := by
  rw [State.roundsOperand, State.roundsOperand, State.capOperand, State.capOperand, h.snapshot, h.burst]

end

theorem sameInputs_of_phase {s t : State} (hp : s.phase = t.phase) (hb : s.busy = true) (he : s.entropy = t.entropy)
    (hu : s.burst = t.burst) : SameInputs s t := by
  obtain ⟨w, snap, q, hs⟩ := busy_eq_true_iff.1 hb
  have ht := hp.symm.trans hs
  exact ⟨(snapshot_of_busy hs).trans (snapshot_of_busy ht).symm, (search_of_busy hs).trans (search_of_busy ht).symm,
    he, hu⟩

/-- The turn `f` ends the same way on every state with the inputs of `s`. -/
def EndsAlike (i : Instr) (Q : Prop) (s : State) (f : State → State) : Prop :=
  ∃ E : TurnEnd, E.Belongs i Q ∧ ∀ t, SameInputs s t → f t = E.on t

/-! ## The searches of PRIMEGEN and KEYGEN -/

theorem two_le_of_mem_primeSizes {n : Nat} (h : n ∈ Config.primeSizes) : 2 ≤ n := by
  simp [Config.primeSizes] at h; omega

theorem half_of_mem_keySizes {n : Nat} (h : n ∈ Config.keySizes) : 2 ≤ n / 2 ∧ n - n / 2 = n / 2 := by
  simp [Config.keySizes] at h; omega

theorem searchTurn_running_inRange {bits rounds cap burst c n : Nat} {left : Option Search} {e e' : Entropy}
    (hb : 2 ≤ bits) (hl : ∀ q, left = some q → InCandidateRange bits q.candidate)
    (h : searchTurn bits rounds cap burst left e = (.running c n, e')) : InCandidateRange bits c := by
  obtain ⟨k, hk⟩ := searchTurn_spec (rounds := rounds) (cap := cap) (burst := burst) (e := e) hb hl
  rw [h] at hk
  exact (hk.running c n rfl).1

theorem keygenFirst_running {s : State} {rd : Slot} {n c cp : Nat} {left : Option Search} {e : Entropy}
    (h : searchTurn (n / 2) s.roundsOperand s.capOperand s.burst left s.entropy = (.running c cp, e)) :
    s.keygenFirst rd n left = (s.withEntropy e).suspend ⟨none, c, cp⟩ := by
  unfold State.keygenFirst
  rw [h]

theorem keygenSecond_running {s : State} {rd : Slot} {n p cp c cq : Nat} {left : Option Search} {e : Entropy}
    (h : searchTurn (n - n / 2) s.roundsOperand s.capOperand s.burst left s.entropy = (.running c cq, e)) :
    s.keygenSecond rd n p cp left = (s.withEntropy e).suspend ⟨some (p, cp), c, cq⟩ := by
  unfold State.keygenSecond
  rw [h]

/-- A derivation ends by its result, whatever the state. -/
theorem finishDerivation_endsAlike {i : Instr} {Q : Prop} {s : State} {rd : Slot} (e : Entropy) (r : KeyResult)
    {c : Option Word} (h1 : destinations i = [rd, slotAfter rd 1, slotAfter rd 2]) (h2 : writesResult i = false)
    (h3 : c.isSome = searches i) : EndsAlike i Q s fun t => (t.withEntropy e).finishDerivation rd r c := by
  cases r with
  | ok n x d => exact ⟨.ok e (tripleWrites rd n x d) none c, ⟨h1.symm, h2.symm, h3⟩, fun _ _ => rfl⟩
  | err k => exact ⟨.error e k c, fun _ hs => h3.trans hs, fun _ _ => rfl⟩

theorem keygenSecond_endsAlike {Q : Prop} {s : State} {rd : Slot} {n : Half} {p cp : Nat} {left : Option Search}
    (e : Entropy) (hn : n.toNat ∈ Config.keySizes)
    (hl : Q → InCandidateRange (n.toNat / 2) p ∧ ∀ q, left = some q → InCandidateRange (n.toNat / 2) q.candidate) :
    EndsAlike (.keygen rd n) Q s fun t => (t.withEntropy e).keygenSecond rd n.toNat p cp left := by
  obtain ⟨h2, heq⟩ := half_of_mem_keySizes hn
  obtain ⟨⟨r, e'⟩, hr⟩ : ∃ r, searchTurn (n.toNat - n.toNat / 2) s.roundsOperand s.capOperand s.burst left e = r :=
    ⟨_, rfl⟩
  have hsame : ∀ t, SameInputs s t → searchTurn (n.toNat - n.toNat / 2) (t.withEntropy e).roundsOperand
      (t.withEntropy e).capOperand (t.withEntropy e).burst left (t.withEntropy e).entropy = (r, e') :=
    fun t ht => (ht.searchTurn _ left e).trans hr
  cases r with
  | found q cq =>
    obtain ⟨E, hE, hon⟩ := finishDerivation_endsAlike (i := .keygen rd n) (Q := Q) (s := s) e' (keyDerive p q)
      (c := some (saturate (cp + cq))) rfl rfl rfl
    exact ⟨E, hE, fun t ht => (keygenSecond_found (hsame t ht)).trans (hon t ht)⟩
  | exhausted cq =>
    exact ⟨.error e' .primeSearchExhausted (some (saturate (cp + cq))), fun _ _ => rfl,
      fun t ht => keygenSecond_exhausted (hsame t ht)⟩
  | running c cq =>
    refine ⟨.left e' ⟨some (p, cp), c, cq⟩, fun hQ => ?_, fun t ht => keygenSecond_running (hsame t ht)⟩
    obtain ⟨hp, hl⟩ := hl hQ
    refine ⟨hn, searchTurn_running_inRange h2 hl (heq ▸ hr), fun f hf => ?_⟩
    cases hf
    exact hp

theorem keygenFirst_endsAlike {Q : Prop} {s : State} {rd : Slot} {n : Half} {left : Option Search}
    (hn : n.toNat ∈ Config.keySizes)
    (hl : Q → ∀ q, left = some q → InCandidateRange (n.toNat / 2) q.candidate) :
    EndsAlike (.keygen rd n) Q s fun t => t.keygenFirst rd n.toNat left := by
  obtain ⟨h2, -⟩ := half_of_mem_keySizes hn
  obtain ⟨⟨r, e⟩, hr⟩ : ∃ r, searchTurn (n.toNat / 2) s.roundsOperand s.capOperand s.burst left s.entropy = r :=
    ⟨_, rfl⟩
  have hsame : ∀ t, SameInputs s t →
      searchTurn (n.toNat / 2) t.roundsOperand t.capOperand t.burst left t.entropy = (r, e) :=
    fun t ht => by rw [ht.searchTurn, ← ht.entropy, hr]
  cases r with
  | found p cp =>
    obtain ⟨E, hE, hon⟩ := keygenSecond_endsAlike (Q := Q) (s := s) (rd := rd) (p := p) (cp := cp) (left := none) e hn
      fun hQ => ⟨searchTurn_found h2 (hl hQ) hr, fun q h => nomatch h⟩
    exact ⟨E, hE, fun t ht => (keygenFirst_found (hsame t ht)).trans (hon t ht)⟩
  | exhausted cp =>
    exact ⟨.error e .primeSearchExhausted (some (saturate cp)), fun _ _ => rfl,
      fun t ht => keygenFirst_exhausted (hsame t ht)⟩
  | running c cp =>
    exact ⟨.left e ⟨none, c, cp⟩, fun hQ => ⟨hn, searchTurn_running_inRange h2 (hl hQ) hr, fun _ hf => nomatch hf⟩,
      fun t ht => keygenFirst_running (hsame t ht)⟩

theorem keygenTurn_endsAlike {s : State} {rd : Slot} {n : Half} (hn : n.toNat ∈ Config.keySizes) :
    EndsAlike (.keygen rd n) (s.LeftFits (.keygen rd n)) s
      fun t => t.keygenTurn rd n.toNat := by
  by_cases hfirst : ∀ l, s.leftRunning = some l → l.first = none
  · obtain ⟨E, hE, hon⟩ := keygenFirst_endsAlike (Q := s.LeftFits (.keygen rd n))
      (s := s) (rd := rd) (left := s.leftRunning) hn fun hQ q hq => (hQ q hq).2.1
    refine ⟨E, hE, fun t ht => ?_⟩
    exact (keygenTurn_first (ht.leftRunning ▸ hfirst)).trans (ht.leftRunning ▸ hon t ht)
  · push Not at hfirst
    obtain ⟨l, hl, hne⟩ := hfirst
    obtain ⟨⟨p, cp⟩, hf⟩ := Option.ne_none_iff_exists'.1 hne
    obtain ⟨E, hE, hon⟩ := keygenSecond_endsAlike
      (Q := s.LeftFits (.keygen rd n)) (s := s) (rd := rd) (p := p) (cp := cp)
      (left := some l) s.entropy hn fun hQ => by
        obtain ⟨-, hc, hp⟩ := hQ l hl
        refine ⟨hp _ hf, fun q hq => ?_⟩
        cases hq
        exact hc
    refine ⟨E, hE, fun t ht => ?_⟩
    exact (keygenTurn_second (ht.leftRunning.trans hl) hf).trans (ht.entropy ▸ hon t ht :)

/-! ## Every command -/

theorem exec_derive_unfit {s : State} {rd ra rb : Slot} (h : ¬ rd.val ≤ 5) :
    exec (.derive rd ra rb) s = .next ((s.withEntropy s.entropy).raise .illegalCommand none) :=
  if_neg (by simpa [tripleFits] using h)

theorem exec_keygen_unfit {s : State} {rd : Slot} {n : Half} (h : ¬ rd.val ≤ 5) :
    exec (.keygen rd n) s = .next ((s.withEntropy s.entropy).raise .illegalCommand none) :=
  if_neg (by simpa [tripleFits] using h)

/-- The turn of the command ends the same way on every state with the inputs of `s`. -/
def ExecEndsAlike (i : Instr) (s : State) : Prop :=
  ∃ E : TurnEnd, E.Belongs i (s.LeftFits i) ∧
    ∀ t, SameInputs s t → exec i t = .next (E.on t)

/-- A completion without a draw. -/
theorem ExecEndsAlike.ok {i : Instr} {s : State} (ws : List (Slot × Nat)) (r c : Option Word)
    (hb : ws.map (·.1) = destinations i ∧ r.isSome = writesResult i ∧ c.isSome = searches i)
    (h : ∀ t, SameInputs s t → exec i t = .next ((t.withEntropy t.entropy).completeOk ws r c)) :
    ExecEndsAlike i s :=
  ⟨.ok s.entropy ws r c, hb, fun t ht => by rw [h t ht, ← ht.entropy]; rfl⟩

/-- An error without a draw. -/
theorem ExecEndsAlike.error {i : Instr} {s : State} (k : ErrKind) (c : Option Word)
    (hb : i.wellFormed = true → searches i = true → c.isSome = true)
    (h : ∀ t, SameInputs s t → exec i t = .next ((t.withEntropy t.entropy).raise k c)) : ExecEndsAlike i s :=
  ⟨.error s.entropy k c, hb, fun t ht => by rw [h t ht, ← ht.entropy]; rfl⟩

theorem primegen_endsAlike (s : State) (rd : Slot) (bits : Half) : ExecEndsAlike (.primegen rd bits) s := by
  by_cases hb : bits.toNat ∈ Config.primeSizes
  · obtain ⟨⟨r, e⟩, hr⟩ : ∃ r, searchTurn bits.toNat s.roundsOperand s.capOperand s.burst s.leftRunning s.entropy =
      r := ⟨_, rfl⟩
    have hsame : ∀ t, SameInputs s t →
        searchTurn bits.toNat t.roundsOperand t.capOperand t.burst t.leftRunning t.entropy = (r, e) :=
      fun t ht => by rw [ht.searchTurn, ht.leftRunning, ← ht.entropy, hr]
    cases r with
    | found c n =>
      exact ⟨.ok e [(rd, c)] none (some (saturate n)), ⟨rfl, rfl, rfl⟩,
        fun t ht => by rw [exec_primegen hb, hsame t ht]; rfl⟩
    | exhausted n =>
      exact ⟨.error e .primeSearchExhausted (some (saturate n)), fun _ _ => rfl,
        fun t ht => by rw [exec_primegen hb, hsame t ht]; rfl⟩
    | running c n =>
      refine ⟨.left e ⟨none, c, n⟩, fun hQ => ⟨hb, rfl, ?_⟩,
        fun t ht => by rw [exec_primegen hb, hsame t ht]; rfl⟩
      exact searchTurn_running_inRange (two_le_of_mem_primeSizes hb) (fun q hq => (hQ q hq).2.2) hr
  · exact .error .invalidKeySize (some 0) (fun _ _ => rfl) fun t _ => exec_primegen_size hb

theorem derive_endsAlike (s : State) (rd ra rb : Slot) : ExecEndsAlike (.derive rd ra rb) s := by
  by_cases hrd : rd.val ≤ 5
  · by_cases hs : s.src ra < 2 ∨ s.src rb < 2
    · exact .error .operandRange none (by simp [searches]) fun t ht => exec_derive_small hrd (by rwa [ht.src, ht.src])
    · obtain ⟨E, hE, hon⟩ := finishDerivation_endsAlike (i := .derive rd ra rb)
        (Q := s.LeftFits (.derive rd ra rb)) (s := s) s.entropy
        (keyDerive (s.src ra) (s.src rb)) (c := none) rfl rfl rfl
      push Not at hs
      refine ⟨E, hE, fun t ht => ?_⟩
      rw [exec_derive hrd (by rw [ht.src]; exact hs.1) (by rw [ht.src]; exact hs.2), ht.src, ht.src, ← hon t ht,
        ht.entropy]
  · exact .error .illegalCommand none (by simp [searches]) fun t _ => exec_derive_unfit hrd

theorem keygen_endsAlike (s : State) (rd : Slot) (n : Half) : ExecEndsAlike (.keygen rd n) s := by
  by_cases hrd : rd.val ≤ 5
  · by_cases hn : n.toNat ∈ Config.keySizes
    · obtain ⟨E, hE, hon⟩ := keygenTurn_endsAlike (s := s) (rd := rd) hn
      exact ⟨E, hE, fun t ht => (exec_keygen hrd hn).trans (congrArg _ (hon t ht))⟩
    · exact .error .invalidKeySize (some 0) (fun _ _ => rfl) fun t _ => exec_keygen_size hrd hn
  · exact .error .illegalCommand none (by simp [Instr.wellFormed, tripleFits, hrd]) fun t _ => exec_keygen_unfit hrd

/-- Every command's turn is a function of its inputs (R24). -/
theorem exec_endsAlike (i : Instr) (s : State) : ExecEndsAlike i s := by
  cases i with
  | nop => exact .ok [] none none ⟨rfl, rfl, rfl⟩ fun t _ => exec_nop t
  | modexp rd ra rb rc =>
    by_cases h0 : s.src rc = 0
    · exact .error .zeroModulus none (by simp [searches]) fun t ht => exec_modexp_zero ((ht.src rc).trans h0)
    · refine .ok [(rd, modExpFn (s.src ra) (s.src rb) (s.src rc))] none none ⟨rfl, rfl, rfl⟩ fun t ht => ?_
      simp only [← ht.src] at h0 ⊢
      exact exec_modexp h0
  | cipher rd ra rb rc =>
    by_cases h0 : s.src rb = 0
    · exact .error .zeroModulus none (by simp [searches]) fun t ht => exec_cipher_zero ((ht.src rb).trans h0)
    · by_cases hlt : s.src ra < s.src rb
      · refine .ok [(rd, modExpFn (s.src ra) (s.src rc) (s.src rb))] none none ⟨rfl, rfl, rfl⟩ fun t ht => ?_
        simp only [← ht.src] at hlt ⊢
        exact exec_cipher hlt
      · refine .error .messageTooLarge none (by simp [searches]) fun t ht => ?_
        simp only [← ht.src] at h0 hlt
        exact exec_cipher_large h0 (Nat.not_lt.1 hlt)
  | mrtest ra rounds =>
    exact ⟨.ok (millerRabin (s.src ra) rounds.toNat s.entropy).2 []
        (some (boolResult (millerRabin (s.src ra) rounds.toNat s.entropy).1)) none, ⟨rfl, rfl, rfl⟩,
      fun t ht => by rw [exec_mrtest, ht.src, ← ht.entropy]; rfl⟩
  | gcd rd ra rb =>
    refine .ok [(rd, Nat.gcd (s.src ra) (s.src rb))] none none ⟨rfl, rfl, rfl⟩ fun t ht => ?_
    simp only [← ht.src]
    exact exec_gcd t rd ra rb
  | modinv rd ra rb =>
    by_cases h0 : s.src rb = 0
    · exact .error .zeroModulus none (by simp [searches]) fun t ht => exec_modinv_zero ((ht.src rb).trans h0)
    · by_cases hg : Nat.gcd (s.src ra) (s.src rb) = 1
      · refine .ok [(rd, invFn (s.src ra) (s.src rb))] none none ⟨rfl, rfl, rfl⟩ fun t ht => ?_
        simp only [← ht.src] at h0 hg ⊢
        exact exec_modinv h0 hg
      · refine .error .noInverseExists none (by simp [searches]) fun t ht => ?_
        simp only [← ht.src] at h0 hg
        exact exec_modinv_none h0 hg
  | primegen rd bits => exact primegen_endsAlike s rd bits
  | derive rd ra rb => exact derive_endsAlike s rd ra rb
  | keygen rd n => exact keygen_endsAlike s rd n
  | bitlen ra =>
    refine .ok [] (some (BitVec.ofNat 32 (bitlen (s.src ra)))) none ⟨rfl, rfl, rfl⟩ fun t ht => ?_
    simp only [← ht.src]
    exact exec_bitlen t ra

/-! ## Equal ends on two states -/

/-- A slot that a commit writes holds the same afterwards, whatever memory it was made on. -/
theorem Memory.slot_commit_congr {m m' : Memory} {ws : List (Slot × Nat)} {d : Slot}
    (h : m.slot d = m'.slot d ∨ d ∈ ws.map (·.1)) : (m.commit ws).slot d = (m'.commit ws).slot d := by
  induction ws generalizing m m' with
  | nil => simpa using h
  | cons w ws ih =>
    rw [Memory.commit_cons, Memory.commit_cons]
    apply ih
    by_cases hd : w.1 = d
    · left
      rw [← hd, Memory.slot_writeSlot_same, Memory.slot_writeSlot_same]
    · refine h.imp (fun he => ?_) fun hm => ?_
      · rw [Memory.slot_writeSlot_other hd, Memory.slot_writeSlot_other hd, he]
      · exact (List.mem_cons.1 hm).resolve_left (Ne.symm hd)

/-- A value that is written does not depend on what stood there. -/
theorem getD_eq_of_isSome {α : Type} {o : Option α} (h : o.isSome = true) (a b : α) : o.getD a = o.getD b := by
  obtain ⟨x, rfl⟩ := Option.isSome_iff_exists.1 h
  rfl

/-- Settles O41: both states have the command's inputs, so its turn ends alike on them. -/
theorem commandsReadOnlyTheirSnapshot : Obligations.CommandsReadOnlyTheirSnapshot := by
  intro i s₁ s₂ t₁ t₂ hwf hb hp he hu h₁ h₂
  obtain ⟨E, hE, hon⟩ := exec_endsAlike i s₁
  rw [hon s₁ ⟨rfl, rfl, rfl, rfl⟩] at h₁
  rw [hon s₂ (sameInputs_of_phase hp hb he hu)] at h₂
  cases h₁
  cases h₂
  cases E with
  | ok e ws r c =>
    obtain ⟨hws, hr, hc⟩ := hE
    refine ⟨rfl, rfl, fun _ => ⟨rfl, rfl, rfl, fun _ d hd => ?_, fun _ hw => ?_, fun hs => ?_⟩⟩
    · exact Memory.slot_commit_congr (.inr (hws ▸ hd))
    · exact getD_eq_of_isSome (hr.trans hw) _ _
    · exact getD_eq_of_isSome (hc.trans hs) _ _
  | error e k c =>
    have herr : (TurnEnd.on s₁ (.error e k c)).err ≠ false := Bool.false_ne_true.symm
    exact ⟨rfl, rfl, fun _ => ⟨rfl, rfl, rfl, fun hf => absurd hf herr, fun hf => absurd hf herr,
      fun hs => getD_eq_of_isSome (hE hwf hs) _ _⟩⟩
  | left e q =>
    obtain ⟨w, snap, q', hs₁⟩ := busy_eq_true_iff.1 hb
    have hp₁ : (TurnEnd.on s₁ (.left e q)).phase = .busy w snap (some q) := suspend_phase_busy q hs₁
    have hp₂ : (TurnEnd.on s₂ (.left e q)).phase = .busy w snap (some q) := suspend_phase_busy q (hp ▸ hs₁)
    refine ⟨hp₁.trans hp₂.symm, rfl, fun hidle => ?_⟩
    rw [busy_eq_false_iff, hp₁] at hidle
    cases hidle

end Sys2Proof.Machine
end

section
/-! PROOFS. The whole machine: the invariant at reset and over every step (R30, R66, R133, R242, R280), what shows
before a completion (R22, R24), and how long DONE stays (R30, R37). -/

namespace Sys2Proof.Machine

open State

/-- A level of RST puts the block in its reset state or changes nothing (R280; log 16). -/
theorem driveRst_cases (s : State) (level : Bool) :
    s.driveRst level = { s.resetBlock with rst := level } ∨ s.driveRst level = s := by
  unfold State.driveRst
  split
  · exact .inl rfl
  · exact .inr rfl

/-! ## The invariant and the state's operations -/

/-- The reset state meets the invariant, whatever the pin and the other agents' inputs hold (R280). -/
theorem resetBlock_inv (s : State) (level : Bool) : State.Inv { s.resetBlock with rst := level } where
  memWf := Memory.wf_nil
  errCode := by simp
  codeLegal := Nat.zero_le _
  resultBound := Nat.zero_le _
  busy _ _ _ h := nomatch h
  search _ _ _ h := nomatch h
  held _ := rfl

/-- Settles O55: the reset state is the reset of itself. -/
theorem resetMeetsTheInvariant : Obligations.ResetMeetsTheInvariant := resetBlock_inv State.reset false

section
variable {s : State} (h : s.Inv)
include h

/-- The bus response and the agents' inputs are not the block's (log 12). -/
theorem State.Inv.withInputs (r : Option Response) (e : Entropy) (b : Nat) (a : List Event) :
    State.Inv { s with resp := r, entropy := e, burst := b, agenda := a } :=
  { h with held := fun hr => by rw [h.held hr]; rfl }

theorem State.Inv.respond (r : Response) : (s.respond r).Inv := h.withInputs (some r) s.entropy s.burst s.agenda

/-- The two completions leave a legal STATUS and the idle phase. -/
theorem State.Inv.completeOk (hr : s.rst = false) (e : Entropy) (ws : List (Slot × Nat)) {r : Option Word}
    (c : Option Word) (hb : ∀ x ∈ r, x.toNat ≤ 4096) : ((s.withEntropy e).completeOk ws r c).Inv where
  memWf := Memory.wf_commit h.memWf
  errCode := by simp
  codeLegal := Nat.zero_le _
  resultBound := by
    cases r with
    | none => exact h.resultBound
    | some x => exact hb x rfl
  busy _ _ _ hp := nomatch hp
  search _ _ _ hp := nomatch hp
  held ht := absurd ht (by simp [hr])

theorem State.Inv.raise (hr : s.rst = false) (e : Entropy) (k : ErrKind) (c : Option Word) :
    ((s.withEntropy e).raise k c).Inv where
  memWf := h.memWf
  errCode := by cases k <;> simp [ErrKind.code]
  codeLegal := k.code_bounds.2
  resultBound := h.resultBound
  busy _ _ _ hp := nomatch hp
  search _ _ _ hp := nomatch hp
  held ht := absurd ht (by simp [hr])

/-- A search left running keeps the invariant when it is uncapped and fits the word (R133, R134). -/
theorem State.Inv.suspend (hr : s.rst = false) {w : Word} {snap : Snapshot} {p : Option Search}
    (hp : s.phase = .busy w snap p) (e : Entropy) {q : Search} (hc : snap.cap = 0) (hq : q.Fits w) :
    ((s.withEntropy e).suspend q).Inv := by
  have hp' : ((s.withEntropy e).suspend q).phase = .busy w snap (some q) := suspend_phase_busy q hp
  refine { h with busy := fun w' snap' q' ht => ?_, search := fun w' snap' q' ht => ?_, held := fun ht => ?_ }
  · cases hp'.symm.trans ht
    exact h.busy w snap p hp
  · cases hp'.symm.trans ht
    exact ⟨hc, hq⟩
  · exact absurd ht (by simp [hr])

/-- Every host write that the released block takes keeps the invariant. -/
theorem State.Inv.write (hr : s.rst = false) {addr : Nat} {v : Word} {t : State} (hw : WriteEffect s addr v t) :
    t.Inv := by
  have hheld : ¬ s.rst = true := by simp [hr]
  cases hw with
  | nothing => exact h
  | dropped | irqEn | rounds | cap => exact { h with held := fun ht => absurd ht hheld }
  | bytes off size hb h1 h2 =>
    rw [busy_eq_false_iff] at hb
    exact { h with
      memWf := Memory.wf_write h.memWf h1 h2
      busy := fun _ _ _ hp => nomatch hb.symm.trans hp
      held := fun ht => absurd ht hheld }
  | reset _ _ => exact resetBlock_inv s s.rst
  | status _ =>
    refine { h with
      errCode := ?_, codeLegal := ?_, busy := fun w snap q hp => ?_, held := fun ht => absurd ht hheld }
    · rw [writeStatus_err, writeStatus_errcode]
      cases v.getLsbD 2 with
      | false => simpa using h.errCode
      | true => simp
    · rw [writeStatus_errcode]
      split
      · exact Nat.zero_le _
      · exact h.codeLegal
    · obtain ⟨hd, he, hm, hl⟩ := h.busy w snap q hp
      exact ⟨by simp [hd], by simp [he], hm, hl⟩
  | issue _ _ =>
    refine { h with
      errCode := by simp, codeLegal := Nat.zero_le _, busy := fun w snap q hp => ?_, search := fun w snap q hp => ?_,
      held := fun ht => absurd ht hheld }
    · cases hp
      exact ⟨rfl, rfl, rfl, rfl⟩
    · cases hp

/-- An edge or a level of RST (R280). -/
theorem State.Inv.driveRst (level : Bool) : (s.driveRst level).Inv := by
  rcases driveRst_cases s level with he | he <;> rw [he]
  · exact resetBlock_inv s level
  · exact h

end

/-! ## The engine's turn keeps the invariant -/

/-- The search that a command goes on with fits it. -/
theorem State.Inv.leftRunning_fits {s : State} (h : s.Inv) {w : Word} {snap : Snapshot} {p : Option Search} {i : Instr}
    (hp : s.phase = .busy w snap p) (hd : decode w = .command i) : s.LeftFits i := by
  intro q hq
  have hs : s.search = some q := by
    unfold State.leftRunning at hq
    split at hq
    · exact hq
    · cases hq
  rw [search_of_busy hp] at hs
  subst hs
  exact (Search.fits_iff hd).1 (h.search w snap q hp).2

/-- A command's end, read from the phase: it left `q` running. -/
theorem TurnEnd.eq_left_of_phase {s : State} {E : TurnEnd} {w : Word} {snap : Snapshot} {p : Option Search} {q : Search}
    (hp : s.phase = .busy w snap p) (h : (E.on s).phase = .busy w snap (some q)) : ∃ e, E = .left e q := by
  cases E with
  | ok e ws r c => cases h
  | error e k c => cases h
  | left e q' =>
    have hq : ((s.withEntropy e).suspend q').phase = .busy w snap (some q') := suspend_phase_busy q' hp
    cases hq.symm.trans h
    exact ⟨e, rfl⟩

/-- The search that a command leaves running fits it, where the one it went on with did (R133, R182). -/
theorem exec_leaves_fitting {s : State} {w : Word} {snap : Snapshot} {p : Option Search} {q : Search} {i : Instr}
    {e : Entropy} (hp : s.phase = .busy w snap p) (hl : s.LeftFits i)
    (he : exec i s = .next ((s.withEntropy e).suspend q)) : q.FitsCommand i := by
  obtain ⟨E, hE, hon⟩ := exec_endsAlike i s
  have ht : E.on s = (s.withEntropy e).suspend q :=
    Host.Outcome.next.inj ((hon s ⟨rfl, rfl, rfl, rfl⟩).symm.trans he)
  have hq : ((s.withEntropy e).suspend q).phase = .busy w snap (some q) := suspend_phase_busy q hp
  obtain ⟨e', rfl⟩ := TurnEnd.eq_left_of_phase hp (ht ▸ hq)
  exact hE hl

/-- The completion step of a command that decodes (R240). -/
theorem State.Inv.exec {s t : State} (h : s.Inv) (hr : s.rst = false) {w : Word} {snap : Snapshot}
    {p : Option Search} {i : Instr} (hp : s.phase = .busy w snap p) (hd : decode w = .command i)
    (he : exec i s = .next t) : t.Inv := by
  rcases ends_of_exec he with ⟨e, ws, r, c, hc⟩ | ⟨e, k, c, hk⟩ | ⟨e, q, hq⟩
  · rw [hc.eq]
    exact h.completeOk hr e ws c hc.bound
  · rw [hk.eq]
    exact h.raise hr e k c
  · have hcap : snap.cap = 0 := by
      have := hq.cap
      rw [State.capOperand, snapshot_of_busy hp] at this
      exact BitVec.eq_of_toNat_eq this
    rw [hq.eq] at he ⊢
    exact h.suspend hr hp e hcap
      ((Search.fits_iff hd).2 (exec_leaves_fitting hp (h.leftRunning_fits hp hd) he))

theorem State.Inv.engineView {s : State} (h : s.Inv) : s.engineView.Inv := by
  obtain ⟨b, a, hv⟩ := engineView_eq s
  rw [hv]
  exact h.withInputs s.resp s.entropy b a

/-- Settles O56: by the six things a step can be. -/
theorem stepKeepsTheInvariant : Obligations.StepKeepsTheInvariant := by
  intro s t h hstep
  cases step_effect hstep with
  | waits _ _ => exact h.engineView
  | illegal w snap q _ hr _ y _ =>
    exact h.engineView.raise (by rwa [engineView_rst]) s.engineView.entropy .illegalCommand none
  | command w snap q _ hr hp i hd _ he =>
    exact h.engineView.exec (by rwa [engineView_rst]) (by rwa [engineView_phase]) hd he
  | read addr size rest _ r => exact (h.withInputs s.resp s.entropy s.burst rest).respond r
  | write addr size v rest _ t' hw hheld r =>
    have h' := h.withInputs s.resp s.entropy s.burst rest
    refine State.Inv.respond ?_ r
    by_cases hr : s.rst = true
    · rw [hheld hr]
      exact h'
    · exact h'.write (Bool.eq_false_iff.2 hr) hw
  | pin level rest _ => exact (h.withInputs s.resp s.entropy s.burst rest).driveRst level

/-! ## What shows before a completion, and DONE -/

/-- A host write after which the block is still busy wrote no slot and no register of a command's results. -/
theorem WriteEffect.keeps_of_busy {s t : State} {addr : Nat} {v : Word} (hw : WriteEffect s addr v t)
    (hs : s.busy = true) (ht : t.busy = true) :
    t.mem = s.mem ∧ t.result = s.result ∧ t.candidates = s.candidates ∧ t.phase = s.phase := by
  cases hw with
  | bytes _ _ hb _ _ => exact absurd hs (by simp [hb])
  | issue _ hb => exact absurd hs (by simp [hb])
  | reset _ _ => cases ht
  | nothing | dropped | irqEn | status | rounds | cap => exact ⟨rfl, rfl, rfl, rfl⟩

/-- A command after whose turn the block is still busy left a search running, and wrote nothing else (R134). -/
theorem exec_keeps_of_busy {s t : State} {w : Word} {snap : Snapshot} {q : Option Search} {i : Instr}
    (hp : s.phase = .busy w snap q) (he : exec i s = .next t) (ht : t.busy = true) :
    t.mem = s.mem ∧ t.result = s.result ∧ t.candidates = s.candidates ∧ ∃ q', t.phase = .busy w snap q' := by
  rcases ends_of_exec he with ⟨e, ws, r, c, hc⟩ | ⟨e, k, c, hk⟩ | ⟨e, q', hq⟩
  · rw [hc.eq] at ht
    cases ht
  · rw [hk.eq] at ht
    cases ht
  · rw [hq.eq]
    exact ⟨rfl, rfl, rfl, some q', suspend_phase_busy q' hp⟩

theorem step_keeps_of_busy {s t : State} {w : Word} {snap : Snapshot} {q : Option Search}
    (hp : s.phase = .busy w snap q) (hstep : step s = .next t) (ht : t.busy = true) :
    t.mem = s.mem ∧ t.result = s.result ∧ t.candidates = s.candidates ∧ ∃ q', t.phase = .busy w snap q' := by
  cases step_effect hstep with
  | waits _ _ => exact ⟨by simp, by simp, by simp, q, by rwa [engineView_phase]⟩
  | illegal _ _ _ _ _ _ _ _ => cases ht
  | command _ _ _ _ _ _ i _ _ he =>
    simpa using exec_keeps_of_busy ((engineView_phase s).trans hp) he ht
  | read addr size rest _ r => exact ⟨rfl, rfl, rfl, q, hp⟩
  | write addr size v rest _ t' hw _ r =>
    obtain ⟨hm, hres, hcand, hph⟩ := hw.keeps_of_busy (busy_eq_true_iff.2 ⟨w, snap, q, hp⟩) ht
    exact ⟨hm, hres, hcand, q, hph.trans hp⟩
  | pin level rest _ =>
    rcases driveRst_cases { s with agenda := rest } level with he | he <;> rw [he] at ht ⊢
    · cases ht
    · exact ⟨rfl, rfl, rfl, q, hp⟩

/-- Settles O57: a step that leaves the block busy keeps memory, RESULT, CANDIDATES and the running word. -/
theorem nothingIsVisibleBeforeCompletion : Obligations.NothingIsVisibleBeforeCompletion := by
  intro s t w w' snap snap' q q' hp hstep hp'
  obtain ⟨hm, hr, hc, q'', hph⟩ := step_keeps_of_busy hp hstep (busy_eq_true_iff.2 ⟨w', snap', q', hp'⟩)
  cases hp'.symm.trans hph
  exact ⟨fun a => by rw [hm], hr, hc, rfl, rfl⟩

/-- The host writes that turn DONE off. -/
theorem WriteEffect.of_done_off {s t : State} {addr : Nat} {v : Word} (hw : WriteEffect s addr v t)
    (hs : s.done = true) (ht : t.done = false) :
    (addr = Config.base + Reg.status.offset ∧ v.getLsbD 1 = true) ∨ addr = Config.base + Reg.cmd.offset ∨
      (addr = Config.base + Reg.ctrl.offset ∧ v.getLsbD 1 = true) := by
  have hkept : ¬ s.done = false := by simp [hs]
  cases hw with
  | status ha => exact .inl ⟨ha, by simpa [hs] using ht⟩
  | issue ha _ => exact .inr (.inl ha)
  | reset ha hv => exact .inr (.inr ⟨ha, hv⟩)
  | nothing | dropped | bytes | irqEn | rounds | cap => exact absurd ht hkept

/-- No command turns DONE off. -/
theorem exec_keeps_done {s t : State} {i : Instr} (he : exec i s = .next t) (hs : s.done = true) : t.done = true := by
  rcases ends_of_exec he with ⟨e, ws, r, c, hc⟩ | ⟨e, k, c, hk⟩ | ⟨e, q, hq⟩
  · rw [hc.eq]; rfl
  · rw [hk.eq]; rfl
  · rw [hq.eq]; exact hs

/-- Settles O58: the engine and the reads keep DONE, and of the host's writes three turn it off. -/
theorem doneStaysUntilTheHostActs : Obligations.DoneStaysUntilTheHostActs := by
  refine ⟨fun s => rfl, fun s t hstep hs ht => ?_⟩
  have hkept : ¬ t.done = true := by simp [ht]
  cases step_effect hstep with
  | waits _ _ => exact absurd ((engineView_done s).trans hs) hkept
  | illegal _ _ _ _ _ _ _ _ => exact absurd rfl hkept
  | command _ _ _ _ _ _ i _ _ he => exact absurd (exec_keeps_done he ((engineView_done s).trans hs)) hkept
  | read _ _ _ _ _ => exact absurd hs hkept
  | write addr size v rest ha t' hw _ r =>
    refine ⟨rest, ?_⟩
    rcases hw.of_done_off hs ht with ⟨rfl, hv⟩ | rfl | ⟨rfl, hv⟩
    · exact .inl ⟨v, size, ha, hv⟩
    · exact .inr (.inl ⟨v, size, ha⟩)
    · exact .inr (.inr (.inl ⟨v, size, ha, hv⟩))
  | pin level rest ha => exact ⟨rest, .inr (.inr (.inr ⟨level, ha⟩))⟩

end Sys2Proof.Machine
end

section
/-! PROOFS. The host's accesses to operand memory, its reads of the registers, and the accesses that the block answers
without acting on them: what R62, R64, R65, R66, R67 and R68 say of them. -/

namespace Sys2Proof.Machine

open State

/-! ## Bytes of a data word and of a slot -/

theorem two_pow_eight_mul (k : Nat) : 2 ^ (8 * k) = 256 ^ k := pow_mul 2 8 k

/-- Base-256 digit `k` of a data word is its bits 8k to 8k+7 (R62). -/
theorem ofNat_div_pow_eq_extractLsb' (v : Word) (k : Nat) :
    BitVec.ofNat 8 (v.toNat / 256 ^ k) = v.extractLsb' (8 * k) 8 := by
  apply BitVec.eq_of_toNat_eq
  rw [BitVec.toNat_ofNat, BitVec.extractLsb'_toNat, Nat.shiftRight_eq_div_pow, two_pow_eight_mul]

/-- The value of `n` bytes at byte `j` of a slot is bits 8j to 8(j+n)-1 of the slot (R62). -/
theorem Memory.readLE_slot (m : Memory) (i : Slot) {j n : Nat} (h : j + n ≤ Config.slotBytes) :
    m.readLE (slotBase i + j) n = m.slot i / 2 ^ (8 * j) % 2 ^ (8 * n) := by
  rw [Memory.slot, m.readLE_slice h, two_pow_eight_mul, two_pow_eight_mul]

/-- What an access reads fits the data word. -/
theorem Memory.readLE_lt_word (m : Memory) (a : Nat) {n : Nat} (h : n ≤ 4) : m.readLE a n < 2 ^ 32 :=
  calc m.readLE a n < 256 ^ n := m.readLE_lt a n
    _ ≤ 256 ^ 4 := Nat.pow_le_pow_right (by norm_num) h
    _ = 2 ^ 32 := by norm_num

/-! ## The bits of STATUS -/

theorem flagBit_getLsbD (b : Bool) (k i : Nat) : (flagBit b k).getLsbD i = (b && decide (i < 32 ∧ i = k)) := by
  cases b with
  | false => simp [flagBit]
  | true =>
    rw [flagBit, if_pos rfl, BitVec.getLsbD_shiftLeft, BitVec.getLsbD_one, Bool.true_and, Bool.eq_iff_iff]
    simp only [Bool.and_eq_true, Bool.not_eq_true', decide_eq_true_eq, decide_eq_false_iff_not]
    omega

/-- Each bit of STATUS (R30): four flags, ERRCODE from bit 8 on, and 0 elsewhere. -/
theorem statusWord_getLsbD (s : State) {i : Nat} (h : i < 32) :
    s.statusWord.getLsbD i = (s.busy && decide (i = 0) || s.done && decide (i = 1) || s.err && decide (i = 2) ||
      s.ovr && decide (i = 3) || decide (8 ≤ i) && s.errcode.getLsbD (i - 8)) := by
  have hcode : (s.errcode.zeroExtend 32 <<< 8).getLsbD i = (decide (8 ≤ i) && s.errcode.getLsbD (i - 8)) := by
    rw [BitVec.getLsbD_shiftLeft, BitVec.getLsbD_setWidth]
    by_cases h8 : i < 8
    · simp [h8, show ¬ 8 ≤ i by omega]
    · simp [h8, h, show 8 ≤ i by omega, show i - 8 < 32 by omega]
  simp only [statusWord, BitVec.getLsbD_or, flagBit_getLsbD, hcode, h, true_and]

/-- From bit 4 on STATUS holds ERRCODE only, from bit 8. -/
theorem statusWord_getLsbD_above (s : State) {i : Nat} (h4 : 4 ≤ i) (h : i < 32) :
    s.statusWord.getLsbD i = (decide (8 ≤ i) && s.errcode.getLsbD (i - 8)) := by
  simp [statusWord_getLsbD s h, show i ≠ 0 by omega, show i ≠ 1 by omega, show i ≠ 2 by omega, show i ≠ 3 by omega]

/-- R30's layout of STATUS. -/
theorem statusWord_fields (s : State) :
    s.statusWord.getLsbD 0 = s.busy ∧ s.statusWord.getLsbD 1 = s.done ∧ s.statusWord.getLsbD 2 = s.err ∧
    s.statusWord.getLsbD 3 = s.ovr ∧ s.statusWord.extractLsb' 4 4 = 0 ∧
    s.statusWord.extractLsb' 8 8 = s.errcode ∧ s.statusWord.extractLsb' 16 16 = 0 := by
  refine ⟨statusWord_getLsbD_zero s, (statusWord_getLsbD s (by decide)).trans (by simp),
    (statusWord_getLsbD s (by decide)).trans (by simp), (statusWord_getLsbD s (by decide)).trans (by simp),
    BitVec.eq_of_getLsbD_eq fun i hi => ?_, BitVec.eq_of_getLsbD_eq fun i hi => ?_,
    BitVec.eq_of_getLsbD_eq fun i hi => ?_⟩
  · rw [BitVec.getLsbD_extractLsb', statusWord_getLsbD_above s (by omega) (by omega)]
    simp [show ¬ 8 ≤ 4 + i by omega]
  · rw [BitVec.getLsbD_extractLsb', statusWord_getLsbD_above s (by omega) (by omega)]
    simp [hi]
  · rw [BitVec.getLsbD_extractLsb', statusWord_getLsbD_above s (by omega) (by omega),
      BitVec.getLsbD_of_ge s.errcode _ (by omega)]
    simp

/-! ## One step on a write in a slot -/

/-- The step on a write in a slot, from what the write makes of the state (R67). -/
theorem step_writeSlot_eq {s t : State} {i : Slot} {j n : Nat} {v : Word} {rest : List Event}
    (hn : n = 1 ∨ n = 2 ∨ n = 4) (hj : j % n = 0) (h512 : j < 512) (hr : s.rst = false)
    (h : s.agenda = .write (Config.base + (slotBase i + j)) n v :: rest)
    (hw : { s with agenda := rest }.writeMem (slotBase i + j) n v = t) :
    step s = .next (t.respond .writeDone) := by rw [step_writeSlot hn hj h512 hr h, hw]

/-! ## One step on an access that the block does not act on -/

/-- The grounds of R64, as the host names them by the bus address. -/
theorem isBusError_of_grounds {off size : Nat}
    (h : (Config.base + off) % size ≠ 0 ∨ (size ≠ 4 ∧ off < 0x1000) ∨ (0x24 ≤ off ∧ off ≤ 0xFFF) ∨
      (size ≠ 1 ∧ size ≠ 2 ∧ size ≠ 4)) : isBusError off size = true := by
  by_contra hok
  obtain ⟨hsize, halign, hnarrow, hreserved⟩ := isBusError_eq_false.1 (Bool.eq_false_iff.2 hok)
  rw [base_add_mod off hsize] at h
  omega

section
variable {s : State} {rest : List Event} {size : Nat} {v : Word}

/-- An access inside the window that gets a bus error (R64). -/
theorem step_busError {off : Nat} (hoff : off < 0x2000) (hbad : isBusError off size = true)
    (h : s.agenda = .read (Config.base + off) size :: rest ∨ s.agenda = .write (Config.base + off) size v :: rest) :
    step s = .next ({ s with agenda := rest }.respond (.busError 0)) := by
  rcases h with h | h
  · rw [step_read h, hostRead_base hoff, State.readOffset, if_pos hbad]
  · rw [step_write h, hostWrite_base hoff, State.writeOffset, if_pos hbad]

/-- An access outside the window (R65). -/
theorem step_foreign {addr : Nat} (hout : inWindow addr = false)
    (h : s.agenda = .read addr size :: rest ∨ s.agenda = .write addr size v :: rest) :
    step s = .next ({ s with agenda := rest }.respond .notMine) := by
  have hnot : ¬ inWindow addr = true := Bool.eq_false_iff.1 hout
  rcases h with h | h
  · rw [step_read h, State.hostRead, if_neg hnot]
  · rw [step_write h, State.hostWrite, if_neg hnot]

end

/-! ## The obligations -/

/-- Settles O44: `writeMem` drops the write while busy and is `Memory.write` while idle. -/
theorem slotWriteLandsOrIsDropped : Obligations.SlotWriteLandsOrIsDropped := by
  intro s i j n v rest hn hj h512 hr h
  by_cases hb : s.busy = true
  · exact ⟨_, step_writeSlot_eq hn hj h512 hr h (if_pos hb), rfl, rfl, fun _ => rfl,
      fun hf => absurd hb (hf ▸ Bool.false_ne_true)⟩
  · refine ⟨_, step_writeSlot_eq hn hj h512 hr h (if_neg hb), rfl, rfl, fun ht => absurd ht hb,
      fun _ => ⟨fun k hk => ?_, fun a ha => ?_, rfl⟩⟩
    · exact (Memory.readByte_write_inside hk).trans (ofNat_div_pow_eq_extractLsb' v k)
    · exact Memory.readByte_write_outside ha

/-- Settles O45: the bytes read are those of the slot, which the invariant keeps equal to the snapshot's while busy. -/
theorem slotReadReturnsItsBits : Obligations.SlotReadReturnsItsBits := by
  intro s i j n rest hn hj h512 hr h
  have hword : s.mem.readLE (slotBase i + j) n < 2 ^ 32 := Memory.readLE_lt_word _ _ (by omega)
  have hbits : (BitVec.ofNat 32 (s.mem.readLE (slotBase i + j) n)).toNat =
      s.mem.slot i / 2 ^ (8 * j) % 2 ^ (8 * n) := by
    rw [BitVec.toNat_ofNat, Nat.mod_eq_of_lt hword, Memory.readLE_slot _ _ (slotAccess_end hn hj h512)]
  refine ⟨_, _, step_readSlot hn hj h512 hr h, rfl, rfl, hbits, rfl, fun w snap q hinv hp => ?_⟩
  obtain ⟨-, -, hmem, -⟩ := hinv.busy w snap q hp
  rw [hbits, hmem]

/-- Settles O46: `readReg` register by register. -/
theorem registerReadsAreIdempotent : Obligations.RegisterReadsAreIdempotent := by
  refine ⟨statusWord_fields, fun s r rest h hr => ⟨_, step_rreg h hr, rfl, rfl, ?_⟩⟩
  cases r <;> rfl

/-- Settles O47: each ground of R64 is a bus error, which comes before anything else an access does. -/
theorem badAccessesGetABusError : Obligations.BadAccessesGetABusError :=
  fun _ _ _ _ _ hoff hbad h => ⟨_, step_busError hoff (isBusError_of_grounds hbad) h, rfl, rfl, rfl⟩

/-- Settles O48: the window decides before the block looks at the access. -/
theorem foreignAccessesAreNotTheBlocks : Obligations.ForeignAccessesAreNotTheBlocks :=
  fun _ _ _ _ _ hout h => ⟨_, step_foreign (inWindow_foreign (by omega)) h, rfl, rfl, rfl⟩

end Sys2Proof.Machine
end

section
/-! PROOFS. The encoding of commands: the decoder is the inverse of the encoder (R91 to R96), every other word completes
with IllegalCommand (R97 to R99), and the assembler's pseudo-instructions (R102, R103). -/

namespace Sys2Proof

open Machine

/-! ## A word is its fields -/

@[simp] theorem slotBits_rdField (w : Word) : slotBits (rdField w) = w.extractLsb' 8 3 := rfl
@[simp] theorem slotBits_raField (w : Word) : slotBits (raField w) = w.extractLsb' 11 3 := rfl
@[simp] theorem slotBits_rbField (w : Word) : slotBits (rbField w) = w.extractLsb' 14 3 := rfl
@[simp] theorem slotBits_rcField (w : Word) : slotBits (rcField w) = w.extractLsb' 17 3 := rfl

/-- Each bit of a zero field is 0. -/
theorem getElem_of_extractLsb'_eq_zero {w : Word} {k n j : Nat} (h : w.extractLsb' k n = 0) (hk : k ≤ j)
    (hn : j < k + n) (hj : j < 32) : w[j] = false := by
  have hbit : (w.extractLsb' k n).getLsbD (j - k) = w.getLsbD j := by
    rw [BitVec.getLsbD_extractLsb', Nat.add_sub_cancel' hk, decide_eq_true (by omega), Bool.true_and]
  rw [← BitVec.getLsbD_eq_getElem, ← hbit, h]
  exact BitVec.getLsbD_zero

/-- A word without Z12 is its format R fields put together (R91). -/
theorem formatR_eq_of_fields {w : Word} {op : BitVec 8} {rd ra rb rc : Slot} (hop : opField w = op)
    (hrd : rdField w = rd) (hra : raField w = ra) (hrb : rbField w = rb) (hrc : rcField w = rc)
    (hz : w.extractLsb' 20 12 = 0) : formatR op rd ra rb rc = w := by
  subst hop hrd hra hrb hrc
  apply BitVec.eq_of_getLsbD_eq
  intro k hk
  simp only [formatR, placeField, opField]
  interval_cases k <;> simp [getElem_of_extractLsb'_eq_zero hz]

/-- A word without Z2 is its format I fields put together (R92). -/
theorem formatI_eq_of_fields {w : Word} {op : BitVec 8} {rd ra : Slot} {imm : Half} (hop : opField w = op)
    (hrd : rdField w = rd) (hra : raField w = ra) (himm : immField w = imm)
    (hz : w.extractLsb' 14 2 = 0) : formatI op rd ra imm = w := by
  subst hop hrd hra himm
  apply BitVec.eq_of_getLsbD_eq
  intro k hk
  simp only [formatI, placeField, opField, immField]
  interval_cases k <;> simp [getElem_of_extractLsb'_eq_zero hz]

theorem z12_formatR (op : BitVec 8) (rd ra rb rc : Slot) : (formatR op rd ra rb rc).extractLsb' 20 12 = 0 := by
  apply BitVec.eq_of_getLsbD_eq
  intro k hk
  simp only [formatR, placeField]
  interval_cases k <;> simp

theorem z2_formatI (op : BitVec 8) (rd ra : Slot) (imm : Half) : (formatI op rd ra imm).extractLsb' 14 2 = 0 := by
  apply BitVec.eq_of_getLsbD_eq
  intro k hk
  simp only [formatI, placeField]
  interval_cases k <;> simp

/-! ## The decoder by rows -/

/-- The command of a row, its operands read from the word (R96). -/
def Mnemonic.command (m : Mnemonic) (w : Word) : Instr :=
  match m with
  | .NOP => .nop
  | .MODEXP => .modexp (rdField w) (raField w) (rbField w) (rcField w)
  | .CIPHER => .cipher (rdField w) (raField w) (rbField w) (rcField w)
  | .MRTEST => .mrtest (raField w) (immField w)
  | .GCD => .gcd (rdField w) (raField w) (rbField w)
  | .MODINV => .modinv (rdField w) (raField w) (rbField w)
  | .PRIMEGEN => .primegen (rdField w) (immField w)
  | .DERIVE => .derive (rdField w) (raField w) (rbField w)
  | .KEYGEN => .keygen (rdField w) (immField w)
  | .BITLEN => .bitlen (raField w)

theorem decode_of_findRow_none {w : Word} (h : findRow w = none) (i : Instr) : decode w ≠ .command i := by
  simp [decode, h]

/-- A selected row decides the decoding but for the check of the key triple (R96, R99). -/
theorem decode_of_findRow {w : Word} {m : Mnemonic} (h : findRow w = some m) :
    decode w = if (m.command w).wellFormed then .command (m.command w) else .illegal .tripleOutOfRange := by
  rw [decode, h]
  cases m <;> rfl

/-- What decodes: a word that selects a row, to that row's command if it is well-formed (R96). -/
theorem decode_eq_command_iff_selects {w : Word} {i : Instr} :
    decode w = .command i ↔ ∃ m : Mnemonic, m.row.selects w = true ∧ m.command w = i ∧ i.wellFormed = true := by
  constructor
  · intro h
    cases hm : findRow w with
    | none => exact absurd h (decode_of_findRow_none hm i)
    | some m =>
      rw [decode_of_findRow hm] at h
      split at h
      · cases h
        exact ⟨m, findRow_eq_some_iff.1 hm, rfl, ‹_›⟩
      · cases h
  · rintro ⟨m, hs, rfl, hwf⟩
    rw [decode_of_findRow (findRow_eq_some_iff.2 hs), if_pos hwf]

/-! ## Decode and encode -/

/-- The encoding selects the command's row, constructor by constructor. -/
theorem encode_selects (i : Instr) : i.mnemonic.row.selects (encode i) = true := by
  cases i with
  | nop => exact Laws.RowMatch.nop
  | modexp rd ra rb rc => exact Laws.RowMatch.modexp rd ra rb rc
  | cipher rd ra rb rc => exact Laws.RowMatch.cipher rd ra rb rc
  | mrtest ra rounds => exact Laws.RowMatch.mrtest ra rounds
  | gcd rd ra rb => exact Laws.RowMatch.gcd rd ra rb
  | modinv rd ra rb => exact Laws.RowMatch.modinv rd ra rb
  | primegen rd bits => exact Laws.RowMatch.primegen rd bits
  | derive rd ra rb => exact Laws.RowMatch.derive rd ra rb
  | keygen rd totalBits => exact Laws.RowMatch.keygen rd totalBits
  | bitlen ra => exact Laws.RowMatch.bitlen ra

/-- The operands read back from the encoding are the command's. -/
theorem command_encode (i : Instr) : i.mnemonic.command (encode i) = i := by
  cases i <;> simp only [Instr.mnemonic, Mnemonic.command, encode, rdField_formatR, raField_formatR, rbField_formatR,
    rcField_formatR, rdField_formatI, raField_formatI, immField_formatI]

/-- A field that a row's mask covers holds the bits of the row's match (R95). -/
theorem extractLsb'_of_selects {r : Row} {w : Word} (k n : Nat) (h : r.selects w = true)
    (hm : r.mask.extractLsb' k n = BitVec.allOnes n) : w.extractLsb' k n = r.pattern.extractLsb' k n := by
  have h : w &&& r.mask = r.pattern := by simpa [Row.selects] using h
  rw [← h, BitVec.extractLsb'_and, hm, BitVec.and_allOnes]

/-- A word that selects a row is the encoding of its command: the mask covers the fields that the command does not use
(R95), and the others are its operands. -/
theorem encode_command {m : Mnemonic} {w : Word} (h : m.row.selects w = true) : encode (m.command w) = w := by
  have hop := opField_of_selects h
  have hfixed := fun k n => extractLsb'_of_selects k n h
  have hslot := fun k hm => congrArg BitVec.toFin (hfixed k 3 hm)
  cases m with
  | NOP =>
    exact formatR_eq_of_fields hop (hslot 8 rfl) (hslot 11 rfl) (hslot 14 rfl) (hslot 17 rfl) (hfixed 20 12 rfl)
  | MODEXP => exact formatR_eq_of_fields hop rfl rfl rfl rfl (hfixed 20 12 rfl)
  | CIPHER => exact formatR_eq_of_fields hop rfl rfl rfl rfl (hfixed 20 12 rfl)
  | MRTEST => exact formatI_eq_of_fields hop (hslot 8 rfl) rfl rfl (hfixed 14 2 rfl)
  | GCD => exact formatR_eq_of_fields hop rfl rfl rfl (hslot 17 rfl) (hfixed 20 12 rfl)
  | MODINV => exact formatR_eq_of_fields hop rfl rfl rfl (hslot 17 rfl) (hfixed 20 12 rfl)
  | PRIMEGEN => exact formatI_eq_of_fields hop rfl (hslot 11 rfl) rfl (hfixed 14 2 rfl)
  | DERIVE => exact formatR_eq_of_fields hop rfl rfl rfl (hslot 17 rfl) (hfixed 20 12 rfl)
  | KEYGEN => exact formatI_eq_of_fields hop rfl (hslot 11 rfl) rfl (hfixed 14 2 rfl)
  | BITLEN => exact formatR_eq_of_fields hop (hslot 8 rfl) rfl (hslot 14 rfl) (hslot 17 rfl) (hfixed 20 12 rfl)

/-- The words that decode are the encodings of the well-formed commands. -/
theorem decode_eq_command_iff {w : Word} {i : Instr} :
    decode w = .command i ↔ encode i = w ∧ i.wellFormed = true := by
  rw [decode_eq_command_iff_selects]
  constructor
  · rintro ⟨m, hs, rfl, hwf⟩
    exact ⟨encode_command hs, hwf⟩
  · rintro ⟨rfl, hwf⟩
    exact ⟨i.mnemonic, encode_selects i, command_encode i, hwf⟩

/-- Settles O1: the words that decode to a command are its one encoding. -/
theorem decodeAndEncodeAgree : Obligations.DecodeAndEncodeAgree :=
  ⟨fun _ hwf => decode_eq_command_iff.2 ⟨rfl, hwf⟩, fun _ _ h => decode_eq_command_iff.1 h⟩

/-- Settles O2: ten closed words. -/
theorem writtenOutWordsDecode : Obligations.WrittenOutWordsDecode := by
  unfold Obligations.WrittenOutWordsDecode
  decide

/-! ## The assembler -/

theorem asmSlot_eq {n : Nat} {i : Slot} (h : n = i.val) : asmSlot n = some i := by
  subst h
  exact dif_pos i.isLt

/-- The slot `j` after the first of a key triple (R102, R103). -/
theorem asmWithKey_eq {d s k : Slot} {j : Nat} (hk : k.val ≤ 5) (hj : j ≤ 2) :
    asmWithKey d s k j = some (.cipher d s k (slotAfter k j)) := by
  have hafter : k.val + j = (slotAfter k j).val := (Nat.mod_eq_of_lt (by omega)).symm
  rw [asmWithKey, if_pos hk, asmSlot_eq rfl, asmSlot_eq rfl, asmSlot_eq rfl, asmSlot_eq hafter]
  rfl

/-- Settles O3: the two are `asmWithKey` with e and with d of the triple. -/
theorem encryptAndDecryptExpand : Obligations.EncryptAndDecryptExpand :=
  fun _ _ _ hk => ⟨asmWithKey_eq hk (by decide), asmWithKey_eq hk (by decide)⟩

/-! ## What an encoding never holds -/

/-- The opcode of an encoding is that of the command's row (R95). -/
theorem opField_encode (i : Instr) : opField (encode i) = i.mnemonic.opcode := opField_of_selects (encode_selects i)

/-- The opcodes 0x0A to 0xFF are reserved (R97). -/
theorem Mnemonic.opcode_lt (m : Mnemonic) : m.opcode.toNat < 10 := by cases m <;> decide

/-- The opcode picks the clause for the command's row, and the fields it names read back as zero (R95, R101). -/
theorem not_mustBeZeroViolated_encode (i : Instr) : ¬ MustBeZeroViolated (encode i) := by
  cases i <;> simp [MustBeZeroViolated, encode, opField_formatR, rdField_formatR, raField_formatR, rbField_formatR,
    rcField_formatR, z12_formatR, opField_formatI, rdField_formatI, raField_formatI, z2_formatI]

/-- The encoding of a well-formed DERIVE or KEYGEN has RD at most 5 (R99). -/
theorem rdField_encode_le {i : Instr} (hwf : i.wellFormed = true)
    (h : i.mnemonic = .DERIVE ∨ i.mnemonic = .KEYGEN) : (rdField (encode i)).val ≤ 5 := by
  cases i with
  | derive rd ra rb => exact (congrArg Fin.val (rdField_formatR 7 rd ra rb 0)).trans_le (of_decide_eq_true hwf)
  | keygen rd totalBits => exact (congrArg Fin.val (rdField_formatI 8 rd 0 totalBits)).trans_le (of_decide_eq_true hwf)
  | _ => simp [Instr.mnemonic] at h

/-! ## The completion step of a word -/

/-- A word that is no command's encoding completes with IllegalCommand (R96, R241). -/
theorem completesIllegal_of_not_encoding {w : Word} (h : ∀ i : Instr, i.wellFormed = true → encode i ≠ w) :
    CompletesIllegal w := by
  intro s snap q hnext hrst hphase
  cases hd : decode w with
  | command i =>
    obtain ⟨he, hwf⟩ := decode_eq_command_iff.1 hd
    exact absurd he (h i hwf)
  | illegal why =>
    exact ⟨_, (step_runWord hnext hrst hphase).trans (runWord_illegal hd), errFrame_raise _ _ _ _, rfl,
      engineView_candidates s, engineView_entropy s⟩

/-- Settles O4: an encoding's opcode is that of a row. -/
theorem reservedOpcodesAreIllegal : Obligations.ReservedOpcodesAreIllegal := by
  intro w hop
  refine completesIllegal_of_not_encoding fun i _ he => ?_
  rw [← he, opField_encode] at hop
  exact absurd i.mnemonic.opcode_lt (Nat.not_lt.2 hop)

/-- Settles O5: an encoding has zeros in its must-be-zero fields. -/
theorem nonzeroMustBeZeroIsIllegal : Obligations.NonzeroMustBeZeroIsIllegal :=
  fun _ hviol => completesIllegal_of_not_encoding fun i _ he => not_mustBeZeroViolated_encode i (he ▸ hviol)

/-- Settles O6: the opcode says DERIVE or KEYGEN, and a well-formed one has RD at most 5. -/
theorem tripleBeyondLastSlotIsIllegal : Obligations.TripleBeyondLastSlotIsIllegal := by
  intro w hop hrd
  refine completesIllegal_of_not_encoding fun i hwf he => ?_
  subst he
  rw [opField_encode] at hop
  have hm : i.mnemonic = .DERIVE ∨ i.mnemonic = .KEYGEN :=
    hop.imp (fun h => opcode_injective (BitVec.eq_of_toNat_eq h)) fun h => opcode_injective (BitVec.eq_of_toNat_eq h)
  exact absurd (rdField_encode_le hwf hm) (Nat.not_le.2 hrd)

/-- Settles O7: the engine's turn runs the word, and the word runs its command. -/
theorem stepRunsDecodedCommand : Obligations.StepRunsDecodedCommand :=
  fun _ _ _ _ _ hnext hrst hphase hd => (step_runWord hnext hrst hphase).trans (runWord_command hd)

end Sys2Proof
end

section
/-! PROOFS. Miller-Rabin: the splitting of n - 1, when a round passes, how many witnesses are drawn, and that no prime
fails: what R120 to R124 say of it. -/

namespace Sys2Proof.Machine

/-- Settles O12: the first two tests of the procedure settle the five values. -/
theorem smallValuesNeedNoDraw : Obligations.SmallValuesNeedNoDraw := fun _ _ => ⟨rfl, rfl, rfl, rfl, rfl⟩

/-! ## The splitting of n - 1 (R122) -/

theorem oddPart_spec {n : Nat} (h : 2 ≤ n) : n - 1 = 2 ^ (oddPart n).2 * (oddPart n).1 ∧ (oddPart n).1 % 2 = 1 := by
  have hfuel : n - 1 < 2 ^ bitlen n := (Nat.sub_le n 1).trans_lt (lt_two_pow_bitlen n)
  obtain ⟨hprod, hodd, -⟩ := splitTwos_spec (s := 0) (Nat.sub_ne_zero_of_lt h) hfuel
  exact ⟨by rwa [pow_zero, mul_one, mul_comm] at hprod, hodd⟩

/-- For odd n the even n - 1 is halved at least once. -/
theorem one_le_oddPart_of_odd {n : Nat} (h : 2 ≤ n) (hodd : n % 2 = 1) : 1 ≤ (oddPart n).2 := by
  obtain ⟨hprod, hd⟩ := oddPart_spec h
  by_contra hs
  rw [Nat.lt_one_iff.1 (Nat.not_le.1 hs), pow_zero, one_mul] at hprod
  omega

/-- For even n the odd n - 1 is not halved. -/
theorem oddPart_of_even {n : Nat} (h : 2 ≤ n) (heven : n % 2 = 0) : oddPart n = (n - 1, 0) := by
  obtain ⟨hprod, -⟩ := oddPart_spec h
  have hs : (oddPart n).2 = 0 := by
    by_contra hs
    have := (dvd_pow_self 2 hs).mul_right (oddPart n).1
    omega
  rw [hs, pow_zero, one_mul] at hprod
  exact Prod.ext hprod.symm hs

/-- Settles O10: the product is kept, and the parity of n decides whether n - 1 is halved at all. -/
theorem oddPartSplitsExactly : Obligations.OddPartSplitsExactly := by
  intro n hn
  have h2 : 2 ≤ n := by omega
  obtain ⟨hprod, hodd⟩ := oddPart_spec h2
  exact ⟨hprod, hodd, one_le_oddPart_of_odd h2, fun he => by simp [oddPart_of_even h2 he], by omega⟩

/-! ## When a round passes (R120, R123) -/

/-- The squarings meet n - 1 exactly when one of the `k` squares is n - 1: after a 1 only 1 comes. -/
theorem squarings_iff {n k x : Nat} (hn : 3 ≤ n) :
    squarings n k x = true ↔ ∃ r < k, x ^ 2 ^ (r + 1) % n = n - 1 := by
  induction k generalizing x with
  | zero => simp [squarings]
  | succ k ih =>
    have hpow : ∀ r, x ^ 2 ^ (r + 1) % n = (x * x % n) ^ 2 ^ r % n := fun r => by
      rw [← Nat.pow_mod, pow_succ', pow_mul, pow_two]
    simp only [hpow, Nat.exists_lt_succ_left, pow_zero, pow_one, Nat.mod_mod, squarings]
    by_cases hminus : x * x % n = n - 1
    · simp [hminus]
    · by_cases hone : x * x % n = 1
      · have hne : 1 % n ≠ n - 1 := by rw [Nat.mod_eq_of_lt (by omega)]; omega
        have hne' : 1 ≠ n - 1 := by omega
        simp [hone, hne, hne']
      · simp [hminus, hone, ih]

/-- A round passes when n - 1 is met among x and its squares, or x is 1. -/
theorem roundPasses_iff {n d s a : Nat} (hn : 3 ≤ n) :
    roundPasses n d s a = true ↔
      a ^ d % n = 1 ∨ a ^ d % n = n - 1 ∨ ∃ r < s - 1, a ^ (2 ^ (r + 1) * d) % n = n - 1 := by
  have hpow : ∀ r, (a ^ d % n) ^ 2 ^ (r + 1) % n = a ^ (2 ^ (r + 1) * d) % n := fun r => by
    rw [← Nat.pow_mod, ← pow_mul, mul_comm]
  simp only [roundPasses, modExpFn_eq (show 0 < n by omega), Bool.or_eq_true, beq_iff_eq, squarings_iff hn, hpow,
    or_assoc]

theorem roundPasses_iff_of_odd {n a : Nat} (h : 5 ≤ n) (hodd : n % 2 = 1) :
    roundPasses n (oddPart n).1 (oddPart n).2 a = true ↔
      a ^ (oddPart n).1 % n = 1 ∨ ∃ r < (oddPart n).2, a ^ (2 ^ r * (oddPart n).1) % n = n - 1 := by
  obtain ⟨s, hs⟩ := Nat.exists_eq_add_of_le' (one_le_oddPart_of_odd (by omega) hodd)
  rw [roundPasses_iff (by omega), hs, Nat.exists_lt_succ_left, pow_zero, one_mul, Nat.add_sub_cancel]

/-- Settles O14: x is the square of rank 0, and an even n has no squaring. -/
theorem roundsPassAtOneOrMinusOne : Obligations.RoundsPassAtOneOrMinusOne := by
  refine ⟨fun n a => roundPasses_iff_of_odd, fun n a hn heven => ?_⟩
  rw [roundPasses_iff (by omega), oddPart_of_even (by omega) heven]
  simp

/-! ## The rounds (R124) -/

theorem millerRabinRounds_succ (n d s r : Nat) (e : Entropy) :
    millerRabinRounds n d s (r + 1) e =
      if roundPasses n d s (e.drawWitness 2 (n - 2)).1
      then millerRabinRounds n d s r (e.drawWitness 2 (n - 2)).2 else (false, (e.drawWitness 2 (n - 2)).2) := rfl

/-- Rounds that end in a failure are all the rounds there are. -/
theorem millerRabinRounds_of_shorter_false {n d s k r : Nat} {e : Entropy} (hk : k ≤ r)
    (h : (millerRabinRounds n d s k e).1 = false) : millerRabinRounds n d s r e = millerRabinRounds n d s k e := by
  induction k generalizing r e with
  | zero => cases h
  | succ k ih =>
    obtain ⟨r, rfl⟩ := Nat.exists_eq_add_of_le' (show 1 ≤ r by omega)
    rw [millerRabinRounds_succ] at h ⊢
    rw [millerRabinRounds_succ n d s k]
    split at h
    · rw [if_pos ‹_›, if_pos ‹_›, ih (by omega) h]
    · rw [if_neg ‹_›, if_neg ‹_›]

/-- Settles O13: the rounds unfold one at a time, and a failing one is the last. -/
theorem roundsDrawOneWitnessEach : Obligations.RoundsDrawOneWitnessEach := by
  intro n rounds e hn
  obtain ⟨hlo, hhi⟩ := e.drawWitness_bounds (show 2 ≤ n - 2 by omega)
  obtain ⟨hpass, hfail⟩ := millerRabinRounds_spec n (oddPart n).1 (oddPart n).2 rounds e
  simp only [millerRabin_eq_rounds hn]
  refine ⟨rfl, ⟨hlo, hhi, e.drawWitness_drawn _ _, rfl⟩, fun h => ⟨hpass h, fun k hk => ?_⟩,
    fun k => millerRabinRounds_of_shorter_false, hfail⟩
  by_contra hf
  rw [millerRabinRounds_of_shorter_false hk (Bool.eq_false_iff.2 hf)] at h
  exact hf h

/-! ## Primes (the note after R124) -/

/-- Without zero divisors, squaring reaches 1 from 1 or through -1 only. -/
theorem eq_one_or_exists_pow_eq_neg_one {R : Type*} [Ring R] [NoZeroDivisors R] {x : R} {s : Nat}
    (h : x ^ 2 ^ s = 1) : x = 1 ∨ ∃ r < s, x ^ 2 ^ r = -1 := by
  induction s with
  | zero => exact .inl (by simpa using h)
  | succ s ih =>
    rw [pow_succ, pow_mul, pow_two, mul_self_eq_one_iff] at h
    rcases h with h | h
    · exact (ih h).imp_right fun ⟨r, hr, hx⟩ => ⟨r, hr.trans s.lt_succ_self, hx⟩
    · exact .inr ⟨s, s.lt_succ_self, h⟩

/-- A prime passes with every witness: by Fermat a^(p-1) is 1 in the field of p elements (R120). -/
theorem roundPasses_of_prime {p a : Nat} (hp : p.Prime) (h5 : 5 ≤ p) (ha : 2 ≤ a) (ha' : a ≤ p - 2) :
    roundPasses p (oddPart p).1 (oddPart p).2 a = true := by
  have : Fact p.Prime := ⟨hp⟩
  have hodd : p % 2 = 1 := hp.eq_two_or_odd.resolve_left (by omega)
  have hunit : (a : ZMod p) ≠ 0 := fun h =>
    Nat.not_dvd_of_pos_of_lt (by omega) (by omega) ((ZMod.natCast_eq_zero_iff a p).1 h)
  have hfermat : ((a : ZMod p) ^ (oddPart p).1) ^ 2 ^ (oddPart p).2 = 1 := by
    rw [← pow_mul, mul_comm, ← (oddPart_spec (by omega)).1, ZMod.pow_card_sub_one_eq_one hunit]
  have hmod : ∀ {k v : Nat}, v < p → (a : ZMod p) ^ k = v → a ^ k % p = v := fun hv h =>
    ((ZMod.natCast_eq_natCast_iff' _ _ p).1 (by rwa [Nat.cast_pow])).trans (Nat.mod_eq_of_lt hv)
  rw [roundPasses_iff_of_odd h5 hodd]
  refine (eq_one_or_exists_pow_eq_neg_one hfermat).imp (fun h => hmod (by omega) (by rwa [Nat.cast_one])) ?_
  rintro ⟨r, hr, h⟩
  refine ⟨r, hr, hmod (by omega) ?_⟩
  rw [mul_comm, pow_mul, h, Nat.cast_pred hp.pos, ZMod.natCast_self, zero_sub]

theorem millerRabinRounds_of_all_pass {n d s : Nat} (hn : 4 ≤ n)
    (h : ∀ a, 2 ≤ a → a ≤ n - 2 → roundPasses n d s a = true) (r : Nat) (e : Entropy) :
    (millerRabinRounds n d s r e).1 = true := by
  induction r generalizing e with
  | zero => rfl
  | succ r ih =>
    obtain ⟨hlo, hhi⟩ := e.drawWitness_bounds (show 2 ≤ n - 2 by omega)
    rw [millerRabinRounds_succ, if_pos (h _ hlo hhi)]
    exact ih _

/-- Settles O15: 2 and 3 are settled without a draw, and from 5 on every witness passes. -/
theorem primesPassUnderEveryDraw : Obligations.PrimesPassUnderEveryDraw := by
  intro p rounds e hp
  by_cases h5 : 5 ≤ p
  · rw [millerRabin_eq_rounds h5]
    exact millerRabinRounds_of_all_pass (by omega) (fun _ => roundPasses_of_prime hp h5) rounds e
  · have h4 : p ≠ 4 := by rintro rfl; exact absurd hp (by decide)
    have := hp.two_le
    rw [millerRabin, if_neg (by omega), if_pos (by omega)]

end Sys2Proof.Machine
end

section
/-! PROOFS. The prime search: its candidates, what it finds, where a cap ends it and how an uncapped one goes on: what
R130 to R135 say of it. -/

namespace Sys2Proof.Machine

/-! ## Candidates (R130) -/

/-- Settles O16: the forced bits are in place, and the draw has no bit above them. -/
theorem candidatesHaveTheirTopBits : Obligations.CandidatesHaveTheirTopBits := by
  intro bits e hb
  obtain ⟨hlo, hhi, hodd⟩ := candidate_inRange e (two_le_of_mem_primeSizes hb)
  exact ⟨rfl, hlo, Nat.le_sub_one_of_lt hhi, hodd⟩

theorem primeSizes_bounds : ∀ n ∈ Config.primeSizes, 256 ≤ n ∧ n ≤ Config.maxBits := by decide

theorem five_le_of_inCandidateRange {bits c : Nat} (hb : bits ∈ Config.primeSizes) (h : InCandidateRange bits c) :
    5 ≤ c := by
  have hbits := (primeSizes_bounds bits hb).1
  calc 5 ≤ 3 * 2 ^ 1 := by norm_num
    _ ≤ 3 * 2 ^ (bits - 2) := Nat.mul_le_mul_left 3 (Nat.pow_le_pow_right (by norm_num) (by omega))
    _ ≤ c := h.1

/-- A value in the candidates' range is 3 above its `bits - 2` low bits, so its top two bits are set (R135). -/
theorem InCandidateRange.topBits {bits c : Nat} (hb : 2 ≤ bits) (h : InCandidateRange bits c) :
    bitlen c = bits ∧ c.testBit (bits - 1) = true ∧ c.testBit (bits - 2) = true := by
  obtain ⟨k, rfl⟩ := Nat.exists_eq_add_of_le' hb
  obtain ⟨hlo, hhi, -⟩ := h
  rw [Nat.add_sub_cancel] at hlo
  have htop : c / 2 ^ k = 3 := Nat.div_eq_of_lt_le hlo (hhi.trans_eq (by ring))
  refine ⟨le_antisymm (bitlen_le_iff.2 hhi) (Nat.not_lt.1 fun hlt => ?_), ?_, ?_⟩
  · have hshort : c < 2 ^ (k + 1) := bitlen_le_iff.1 (Nat.le_of_lt_succ hlt)
    rw [pow_succ] at hshort
    omega
  · rw [Nat.testBit_eq_decide_div_mod_eq, show k + 2 - 1 = k + 1 from rfl, pow_succ, ← Nat.div_div_eq_div_mul, htop]
    rfl
  · rw [Nat.testBit_eq_decide_div_mod_eq, Nat.add_sub_cancel, htop]
    rfl

/-! ## What a search finds (R135) -/

/-- A search from its start draws its first candidate, then loops from 0 candidates (R131). -/
theorem primeSearch_spec {bits rounds cap burst : Nat} {e : Entropy} (hb : 2 ≤ bits) :
    SearchAnswer bits rounds cap (searchFuel cap burst) 0 (e.skip 1) (primeSearch bits rounds cap burst e) :=
  searchLoop_spec hb (candidate_inRange e hb)

theorem millerRabin_zero_rounds {n : Nat} (h : 5 ≤ n) (e : Entropy) : millerRabin n 0 e = (true, e) :=
  millerRabin_eq_rounds h 0 e

theorem searchFuel_pos (cap burst : Nat) : 0 < searchFuel cap burst := by
  unfold searchFuel
  split
  · exact burst.succ_pos
  · exact Nat.pos_of_ne_zero ‹_›

/-- Without rounds every first candidate is accepted (R135). -/
theorem primeSearch_zero_rounds {bits cap burst : Nat} {e : Entropy} (hb : bits ∈ Config.primeSizes) :
    primeSearch bits 0 cap burst e = (.found (candidate bits e).1 1, (candidate bits e).2) := by
  have h5 := five_le_of_inCandidateRange hb (candidate_inRange e (two_le_of_mem_primeSizes hb))
  obtain ⟨fuel, hf⟩ := Nat.exists_eq_add_of_le' (searchFuel_pos cap burst)
  rw [primeSearch, hf, searchLoop, if_neg (by omega), millerRabin_zero_rounds h5]
  rfl

/-- Settles O17: a found value is in the candidates' range, and the first candidate took one draw. -/
theorem foundPrimesKeepTheirShape : Obligations.FoundPrimesKeepTheirShape := by
  refine ⟨fun bits rounds cap burst c count e e' hb h => ?_, fun _ _ _ _ => primeSearch_zero_rounds⟩
  have h2 := two_le_of_mem_primeSizes hb
  have hs := primeSearch_spec (rounds := rounds) (cap := cap) (burst := burst) (e := e) h2
  rw [h] at hs
  obtain ⟨hrange, -, -, k, hk⟩ := hs.found c count rfl
  obtain ⟨hlen, hb1, hb2⟩ := hrange.topBits h2
  rw [Entropy.skip_add] at hk
  exact ⟨hrange.2.2, hlen, hb1, hb2, 1 + k, by omega, hk⟩

/-! ## Where a search ends (R131, R134) -/

/-- Settles O18: a turn of a capped search has fuel for every candidate that the cap allows. -/
theorem cappedSearchEndsWithinTheCap : Obligations.CappedSearchEndsWithinTheCap := by
  intro bits rounds cap burst e hcap
  rw [primeSearch, searchFuel, if_neg hcap]
  exact searchLoop_capped hcap (Nat.zero_add cap)

/-- One candidate of an uncapped loop (R131). -/
theorem searchLoop_uncapped_succ (bits rounds f c count : Nat) (e : Entropy) :
    searchLoop bits rounds 0 (f + 1) c count e =
      if (millerRabin c rounds e).1 then (.found c (count + 1), (millerRabin c rounds e).2)
      else searchLoop bits rounds 0 f (nextCandidate bits c (millerRabin c rounds e).2).1 (count + 1)
        (nextCandidate bits c (millerRabin c rounds e).2).2 := by
  rw [searchLoop, if_neg (by omega)]

/-- Settles O19: both loops test the same first f candidates. -/
theorem uncappedSearchResumesWhereItStopped : Obligations.UncappedSearchResumesWhereItStopped := by
  intro bits rounds f g c count c' count' e e' h
  induction f generalizing c count e with
  | zero =>
    rw [searchLoop, if_neg (by omega)] at h
    cases h
    rw [Nat.zero_add]
  | succ f ih =>
    rw [searchLoop_uncapped_succ] at h
    rw [Nat.succ_add, searchLoop_uncapped_succ]
    split at h
    · cases h
    · rw [if_neg ‹_›, ih _ _ _ h]

end Sys2Proof.Machine
end

section
/-! PROOFS. MRTEST, PRIMEGEN and the errors of KEYGEN's searches: what R125, R132, R136, R181 and R184 say of their
engine turns, and the search that never returns (R134, R292). -/

namespace Sys2Proof.Machine

open State

/-- Settles O26: the completion writes RESULT alone. -/
theorem mrtestWritesTheVerdict : Obligations.MrtestWritesTheVerdict := by
  intro s ra rounds
  refine ⟨_, exec_mrtest s ra rounds, okFrame_of_eq rfl rfl, ?_, ?_, ?_⟩
  · rw [completeOk_result, Option.getD_some, boolResult]
  · rw [completeOk_candidates, Option.getD_none, withEntropy_candidates]
  · rw [completeOk_entropy, withEntropy_entropy]

/-! ## One equation per answer of PRIMEGEN's search (R136) -/

section
variable {s : State} {rd : Slot} {bits : Half} {e : Entropy}

theorem exec_primegen_found {c n : Nat} (hb : bits.toNat ∈ Config.primeSizes)
    (h : searchTurn bits.toNat s.roundsOperand s.capOperand s.burst s.leftRunning s.entropy = (.found c n, e)) :
    exec (.primegen rd bits) s = .next ((s.withEntropy e).completeOk [(rd, c)] none (some (saturate n))) := by
  simp only [exec_primegen hb, h]

theorem exec_primegen_exhausted {n : Nat} (hb : bits.toNat ∈ Config.primeSizes)
    (h : searchTurn bits.toNat s.roundsOperand s.capOperand s.burst s.leftRunning s.entropy = (.exhausted n, e)) :
    exec (.primegen rd bits) s = .next ((s.withEntropy e).raise .primeSearchExhausted (some (saturate n))) := by
  simp only [exec_primegen hb, h]

theorem exec_primegen_running {c n : Nat} (hb : bits.toNat ∈ Config.primeSizes)
    (h : searchTurn bits.toNat s.roundsOperand s.capOperand s.burst s.leftRunning s.entropy = (.running c n, e)) :
    exec (.primegen rd bits) s = .next ((s.withEntropy e).suspend ⟨none, c, n⟩) := by
  simp only [exec_primegen hb, h]

end

/-- Settles O30: a found prime is in the candidates' range, so it fits a slot. -/
theorem primegenCommitsTheFoundPrime : Obligations.PrimegenCommitsTheFoundPrime := by
  intro s rd bits c count e hb hl h
  obtain ⟨-, hlt, -⟩ := searchTurn_found (two_le_of_mem_primeSizes hb) hl h
  have hfit : c < 2 ^ Config.maxBits :=
    hlt.trans_le (Nat.pow_le_pow_right (by norm_num) (primeSizes_bounds bits.toNat hb).2)
  exact ⟨_, exec_primegen_found hb h, okFrame_of_eq rfl rfl, slot_of_completeOk rfl hfit, saturate_toNat count,
    rfl, rfl⟩

/-! ## Errors (R132, R136, R181, R184) -/

/-- Settles O31: the size is checked before any draw. -/
theorem illegalSizesAreReported : Obligations.IllegalSizesAreReported :=
  ⟨fun _ _ _ h => ⟨_, exec_primegen_size h, errFrame_raise _ _ _ _, rfl, rfl⟩,
    fun _ _ _ hrd h => ⟨_, exec_keygen_size hrd h, errFrame_raise _ _ _ _, rfl, rfl⟩⟩

/-- What an error with a count of candidates leaves behind (R241). -/
theorem reports_of_exec_eq_raise {i : Instr} {s : State} {e : Entropy} {k : ErrKind} {n : Nat}
    (h : exec i s = .next ((s.withEntropy e).raise k (some (saturate n)))) :
    ∃ t, exec i s = .next t ∧ ErrFrame k s t ∧ t.candidates.toNat = min n 0xFFFFFFFF ∧ t.entropy = e :=
  ⟨_, h, errFrame_raise s e k _, saturate_toNat n, rfl⟩

theorem keySizes_le : ∀ n ∈ Config.keySizes, n ≤ Config.maxBits := by decide

/-- The product of KEYGEN's two primes fits a slot (R183). -/
theorem mul_lt_of_inCandidateRange {n p q : Nat} (hn : n ∈ Config.keySizes) (hp : InCandidateRange (n / 2) p)
    (hq : InCandidateRange (n / 2) q) : p * q < 2 ^ Config.maxBits := by
  have hsize : n / 2 + n / 2 ≤ Config.maxBits := (show n / 2 + n / 2 ≤ n by omega).trans (keySizes_le n hn)
  calc p * q < 2 ^ (n / 2) * 2 ^ (n / 2) := Nat.mul_lt_mul'' hp.2.1 hq.2.1
    _ = 2 ^ (n / 2 + n / 2) := (pow_add 2 _ _).symm
    _ ≤ 2 ^ Config.maxBits := Nat.pow_le_pow_right (by norm_num) hsize

/-- KEYGEN with a found q for which 65537 has no inverse (R173, R181). -/
theorem keygenSecond_noInverse {s : State} {rd : Slot} {n p cp q cq : Nat} {left : Option Search} {e : Entropy}
    (hn : n ∈ Config.keySizes) (hp : InCandidateRange (n / 2) p)
    (hl : ∀ l, left = some l → InCandidateRange (n / 2) l.candidate) (hg : Nat.gcd 65537 ((p - 1) * (q - 1)) ≠ 1)
    (h : searchTurn (n / 2) s.roundsOperand s.capOperand s.burst left s.entropy = (.found q cq, e)) :
    s.keygenSecond rd n p cp left = (s.withEntropy e).raise .noInverseExists (some (saturate (cp + cq))) := by
  obtain ⟨h2, heq⟩ := half_of_mem_keySizes hn
  rw [keygenSecond_found (heq.symm ▸ h),
    keyDerive_eq_noInverse (mul_lt_of_inCandidateRange hn hp (searchTurn_found h2 hl h)) hg]
  rfl

/-- Settles O36: PRIMEGEN's search, KEYGEN's search for p, its search for q, and the derivation after both. -/
theorem searchErrorsAreReported : Obligations.SearchErrorsAreReported := by
  refine ⟨fun s rd bits count e hb h => reports_of_exec_eq_raise (exec_primegen_exhausted hb h),
    fun s rd totalBits hrd hn => ⟨fun hfirst => ?_, ?_⟩⟩
  · have hexec : exec (.keygen rd totalBits) s = .next (s.keygenFirst rd totalBits.toNat s.leftRunning) := by
      rw [exec_keygen hrd hn, keygenTurn_first hfirst]
    refine ⟨fun cp e₁ h => ?_, fun p cp cq e₁ e₂ h hq => ?_, fun p cp q cq e₁ e₂ h hq hp hg => ?_⟩
    · rw [keygenFirst_exhausted h] at hexec
      exact reports_of_exec_eq_raise hexec
    · have hq' : searchTurn (totalBits.toNat - totalBits.toNat / 2) s.roundsOperand s.capOperand s.burst none e₁ =
          (.exhausted cq, e₂) := (half_of_mem_keySizes hn).2.symm ▸ hq
      rw [keygenFirst_found h, keygenSecond_exhausted hq'] at hexec
      exact reports_of_exec_eq_raise hexec
    · have hsecond := keygenSecond_noInverse (s := s.withEntropy e₁) (rd := rd) (cp := cp) (left := none) hn hp
        (fun _ hl => nomatch hl) hg hq
      rw [keygenFirst_found h, hsecond] at hexec
      exact reports_of_exec_eq_raise hexec
  · intro l p cp q cq e₂ hl hf hp hc h hg
    have hexec := exec_keygen hrd hn (s := s)
    rw [keygenTurn_second hl hf, keygenSecond_noInverse hn hp (fun _ hl' => Option.some.inj hl' ▸ hc) hg h] at hexec
    exact reports_of_exec_eq_raise hexec

/-! ## A search left running (R134) -/

theorem suspend_busy (s : State) (q : Search) : (s.suspend q).busy = s.busy := by
  unfold State.busy State.suspend
  cases s.phase <;> rfl

theorem suspend_statusWord (s : State) (q : Search) : (s.suspend q).statusWord = s.statusWord := by
  rw [statusWord, statusWord, suspend_busy]
  rfl

/-- Settles O37: of the three ends of a turn only the search left running keeps the block busy. -/
theorem unfinishedSearchKeepsTheCommandBusy : Obligations.UnfinishedSearchKeepsTheCommandBusy := by
  intro s t w snap q i hp he ht
  rcases ends_of_exec he with ⟨e, ws, r, c, hc⟩ | ⟨e, k, c, hk⟩ | ⟨e, q', hq⟩
  · rw [hc.eq] at ht
    cases ht
  · rw [hk.eq] at ht
    cases ht
  · have hcap : snap.cap.toNat = 0 := snapshot_of_busy hp ▸ hq.cap
    rw [hq.eq]
    exact ⟨hq.searches, BitVec.eq_of_toNat_eq hcap, ⟨q', suspend_phase_busy q' hp⟩, rfl, rfl, rfl,
      suspend_statusWord (s.withEntropy e) q', keepsHostState_suspend s e q'⟩

/-! ## A search that never returns (R134, R292)

The candidate 2^256 - 1 fails with the witness 2, and the next candidate is a fresh draw, which may be 2^256 - 1
again. -/

/-- The greatest candidate of 256 bits. -/
def topCandidate : Nat := 2 ^ 256 - 1

/-- The answers of the source for `k` candidates: the witness that fails, then the draw of the next candidate. -/
def failingDraws : Nat → List Nat
  | 0 => []
  | k + 1 => 2 :: topCandidate :: failingDraws k

/-- A block that runs PRIMEGEN b0, 256 with ROUNDS = 1 and CAP = 0. -/
def endlessState (search : Option Search) (e : Entropy) : State :=
  { State.reset with
    cmdLast := 0x01000006
    kgRounds := 1
    searchCap := 0
    phase := .busy 0x01000006 { mem := [], rounds := 1, cap := 0 } search
    entropy := e }

theorem endlessState_inv (e : Entropy) : (endlessState none e).Inv :=
  { resetMeetsTheInvariant with
    busy := fun _ _ _ h => by cases h; exact ⟨rfl, rfl, rfl, rfl⟩
    search := fun _ _ _ h => nomatch h
    held := fun h => nomatch h }

theorem millerRabin_topCandidate (rest : List Nat) (d : Nat) :
    millerRabin topCandidate 1 ⟨2 :: rest, d⟩ = (false, ⟨rest, d + 1⟩) := by
  have hfails : ¬ roundPasses topCandidate (oddPart topCandidate).1 (oddPart topCandidate).2 2 = true := by
    decide +kernel
  rw [millerRabin_eq_rounds (by decide), millerRabinRounds_succ,
    Entropy.drawWitness_of_head rest le_rfl (by decide), if_neg hfails]
  rfl

theorem candidate_topCandidate (rest : List Nat) (d : Nat) :
    candidate 256 ⟨topCandidate :: rest, d⟩ = (topCandidate, ⟨rest, d + 1⟩) := by
  have hbits : topCandidate ||| 2 ^ (256 - 1) ||| 2 ^ (256 - 2) ||| 1 = topCandidate := by decide
  rw [candidate, Entropy.drawBits_of_head rest (by decide), hbits]
  rfl

/-- A turn that tests 2^256 - 1, finds it composite, and draws it again. -/
theorem searchLoop_topCandidate (n : Nat) (rest : List Nat) (d : Nat) :
    searchLoop 256 1 0 1 topCandidate n ⟨2 :: topCandidate :: rest, d⟩ =
      (.running topCandidate (n + 1), ⟨rest, d + 2⟩) := by
  rw [searchLoop_uncapped_succ, millerRabin_topCandidate, if_neg Bool.false_ne_true, nextCandidate,
    if_pos (by decide), candidate_topCandidate, searchLoop, if_neg (by omega)]

/-- One engine turn of PRIMEGEN whose search goes on. -/
theorem step_endlessState {search : Option Search} {e e' : Entropy} {n : Nat}
    (h : searchTurn 256 1 0 0 search e = (.running topCandidate n, e')) :
    core.step (endlessState search e) = .next (endlessState (some ⟨none, topCandidate, n⟩) e') := by
  have hdecode : decode 0x01000006 = .command (.primegen 0 256) := by decide
  have hexec : exec (.primegen 0 256) (endlessState search e) =
      .next (endlessState (some ⟨none, topCandidate, n⟩) e') := exec_primegen_running (by decide) h
  have hword : step (endlessState search e) = runWord 0x01000006 (endlessState search e) := step_runWord rfl rfl rfl
  exact hword.trans ((runWord_command hdecode).trans hexec)

theorem run_succ_of_step {M : Host.Core} {s t : M.State} (h : M.step s = .next t) (k : Nat) :
    M.run (k + 1) s = M.run k t := by
  rw [Host.Core.run, h]

/-- Each of the next k engine turns tests one candidate. -/
theorem run_endlessState {k n m : Nat} (d : Nat) (hm : n + k = m) :
    ∃ e, core.run k (endlessState (some ⟨none, topCandidate, n⟩) ⟨failingDraws k, d⟩) =
      .next (endlessState (some ⟨none, topCandidate, m⟩) e) := by
  induction k generalizing n d with
  | zero =>
    subst hm
    exact ⟨_, rfl⟩
  | succ k ih =>
    obtain ⟨e, he⟩ := ih (n := n + 1) (d + 2) (by omega)
    have hturn := step_endlessState (search := some ⟨none, topCandidate, n⟩)
      (searchLoop_topCandidate n (failingDraws k) d)
    exact ⟨e, (run_succ_of_step hturn k).trans he⟩

/-- Settles O20: the source draws 2^256 - 1 and the witness 2 for each of the k candidates. -/
theorem uncappedSearchMayNeverReturn : Obligations.UncappedSearchMayNeverReturn := by
  intro k
  refine ⟨endlessState none ⟨topCandidate :: failingDraws k, 0⟩, endlessState_inv _, rfl, rfl, rfl, ?_⟩
  cases k with
  | zero => exact ⟨_, rfl, rfl, rfl, fun _ => rfl, fun h => absurd h (by decide)⟩
  | succ k =>
    have hfirst : searchTurn 256 1 0 0 none ⟨topCandidate :: failingDraws (k + 1), 0⟩ =
        (.running topCandidate 1, ⟨failingDraws k, 3⟩) := by
      rw [searchTurn, primeSearch, candidate_topCandidate]
      exact searchLoop_topCandidate 0 (failingDraws k) 1
    obtain ⟨e, he⟩ := run_endlessState 3 (Nat.add_comm 1 k)
    exact ⟨_, (run_succ_of_step (step_endlessState hfirst) k).trans he, rfl, rfl, fun _ => rfl,
      fun _ => ⟨_, rfl, le_rfl⟩⟩

end Sys2Proof.Machine
end

section
/-! PROOFS. MODINV and the missing inverse: what R155, R173 and R175 say of MODINV and DERIVE. -/

namespace Sys2Proof.Machine

/-- Settles O28: the inverse is below m, and so fits a slot. -/
theorem modinvWritesTheInverse : Obligations.ModinvWritesTheInverse := by
  intro s rd ra rb hm hg
  have hlt : invFn (s.src ra) (s.src rb) < s.src rb := invFn_lt (Nat.pos_of_ne_zero hm)
  refine ⟨_, exec_modinv hm hg, okFrame_of_eq rfl rfl, ?_⟩
  rw [slot_of_completeOk rfl (hlt.trans (s.src_lt rb))]
  exact ⟨hlt, mul_invFn_mod (Nat.pos_of_ne_zero hm) hg, rfl, rfl, rfl⟩

/-- DERIVE with factors in range for which 65537 has no inverse modulo φ (R173, R175). -/
theorem exec_derive_noInverse {s : State} {rd ra rb : Slot} (hrd : rd.val ≤ 5) (hp : 2 ≤ s.src ra)
    (hq : 2 ≤ s.src rb) (hn : s.src ra * s.src rb < 2 ^ Config.maxBits)
    (hg : Nat.gcd 65537 ((s.src ra - 1) * (s.src rb - 1)) ≠ 1) :
    exec (.derive rd ra rb) s = .next ((s.withEntropy s.entropy).raise .noInverseExists none) := by
  rw [exec_derive hrd hp hq, keyDerive_eq_noInverse hn hg]
  rfl

/-- Settles O29: both commands end by raising the error without a write of CANDIDATES. -/
theorem noInverseIsReported : Obligations.NoInverseIsReported := by
  refine ⟨fun s rd ra rb hm hg => ?_, fun s rd ra rb hrd hp hq hn hg => ?_⟩
  · exact ⟨_, exec_modinv_none hm hg, errFrame_raise _ _ _ _, rfl, rfl⟩
  · have hfit : s.src ra * s.src rb < 2 ^ Config.maxBits := by rwa [Config.maxBits]
    exact ⟨_, exec_derive_noInverse hrd hp hq hfit hg, errFrame_raise _ _ _ _, rfl, rfl⟩

end Sys2Proof.Machine
end

section
/-! PROOFS. Key derivation: what R171 and R172 say of a derived key, the triple that DERIVE and KEYGEN commit (R170, R175,
R183), DERIVE's range errors (R176, R178), and the round trip of R185. -/

namespace Sys2Proof.Machine

/-! ## What a derivation answers (R171, R172) -/

/-- The inversion of `keyDerive`: a derived key comes from a product that fits and an invertible exponent. -/
theorem keyDerive_ok_inv {p q n e d : Nat} (h : keyDerive p q = .ok n e d) :
    p * q < 2 ^ Config.maxBits ∧ Nat.gcd 65537 ((p - 1) * (q - 1)) = 1 ∧
      n = p * q ∧ e = 65537 ∧ d = invFn 65537 ((p - 1) * (q - 1)) := by
  have hfit : p * q < 2 ^ Config.maxBits := Nat.not_le.1 fun hr => by
    rw [keyDerive_eq_range hr] at h
    cases h
  have hg : Nat.gcd 65537 ((p - 1) * (q - 1)) = 1 := not_not.1 fun hr => by
    rw [keyDerive_eq_noInverse hfit hr] at h
    cases h
  rw [keyDerive_eq_ok hfit hg] at h
  cases h
  exact ⟨hfit, hg, rfl, rfl, rfl⟩

theorem phi_pos {p q : Nat} (hp : 2 ≤ p) (hq : 2 ≤ q) : 0 < (p - 1) * (q - 1) :=
  Nat.mul_pos (Nat.sub_pos_of_lt hp) (Nat.sub_pos_of_lt hq)

/-- φ = 1 only for p = q = 2 (R172). -/
theorem eq_two_of_phi_eq_one {p q : Nat} (h : (p - 1) * (q - 1) = 1) : p = 2 ∧ q = 2 := by
  obtain ⟨hp, hq⟩ := mul_eq_one.1 h
  omega

/-- Settles O32: d is the inverse of 65537 modulo φ, and below φ. -/
theorem derivedKeySatisfiesItsCongruence : Obligations.DerivedKeySatisfiesItsCongruence := by
  intro p q n e d hp hq h
  obtain ⟨-, hg, rfl, rfl, rfl⟩ := keyDerive_ok_inv h
  have hlt := invFn_lt (a := 65537) (phi_pos hp hq)
  have hcong := mul_invFn_mod (phi_pos hp hq) hg
  refine ⟨rfl, rfl, hlt, hcong, fun h2 => hcong.trans (Nat.mod_eq_of_lt h2), fun h1 => ?_⟩
  obtain ⟨hp2, hq2⟩ := eq_two_of_phi_eq_one h1
  rw [h1] at hlt ⊢
  exact ⟨hp2, hq2, Nat.lt_one_iff.1 hlt, Nat.mod_one _⟩

/-! ## The triple a derivation commits (R170, R175) -/

/-- A derivation that succeeds commits p q, 65537 and its inverse modulo φ, and writes nothing else but CANDIDATES, where
the command has it, and STATUS. -/
theorem finishDerivation_commits (s : State) (e : Entropy) {rd : Slot} {p q : Nat} (c : Option Word)
    (hrd : rd.val ≤ 5) (hp : 2 ≤ p) (hq : 2 ≤ q) (hn : p * q < 2 ^ Config.maxBits)
    (hg : Nat.gcd 65537 ((p - 1) * (q - 1)) = 1) {t : State}
    (ht : t = (s.withEntropy e).finishDerivation rd (keyDerive p q) c) :
    OkFrame [rd, slotAfter rd 1, slotAfter rd 2] s t ∧
      t.mem.slot rd = p * q ∧ t.mem.slot (slotAfter rd 1) = 65537 ∧
      t.mem.slot (slotAfter rd 2) < (p - 1) * (q - 1) ∧
      65537 * t.mem.slot (slotAfter rd 2) ≡ 1 [MOD (p - 1) * (q - 1)] ∧
      t.result = s.result ∧ t.candidates = c.getD s.candidates ∧ t.entropy = e := by
  rw [keyDerive_eq_ok hn hg] at ht
  have hlt := invFn_lt (a := 65537) (phi_pos hp hq)
  have hphi : (p - 1) * (q - 1) ≤ p * q := Nat.mul_le_mul (Nat.sub_le p 1) (Nat.sub_le q 1)
  obtain ⟨h0, h1, h2⟩ := slots_of_completeOk_triple ht hrd hn ePub_lt (hlt.trans (hphi.trans_lt hn))
  refine ⟨okFrame_of_eq ht rfl, h0, h1, h2 ▸ hlt, ?_, ht ▸ rfl, ht ▸ rfl, ht ▸ rfl⟩
  rw [h2]
  exact mul_invFn_mod (phi_pos hp hq) hg

/-- Settles O33: the derivation of two factors in range succeeds. -/
theorem deriveWritesTheTriple : Obligations.DeriveWritesTheTriple := by
  intro s rd ra rb hrd hp hq hn hg
  have hfit : s.src ra * s.src rb < 2 ^ Config.maxBits := by rwa [Config.maxBits]
  exact ⟨_, exec_derive hrd hp hq, finishDerivation_commits s s.entropy none hrd hp hq hfit hg rfl⟩

/-- DERIVE with a factor below 2, or with a product that does not fit a slot (R176, R178). -/
theorem exec_derive_range {s : State} {rd ra rb : Slot} (hrd : rd.val ≤ 5)
    (h : s.src ra < 2 ∨ s.src rb < 2 ∨ 2 ^ Config.maxBits ≤ s.src ra * s.src rb) :
    exec (.derive rd ra rb) s = .next ((s.withEntropy s.entropy).raise .operandRange none) := by
  by_cases hs : s.src ra < 2 ∨ s.src rb < 2
  · exact exec_derive_small hrd hs
  · obtain ⟨hp, hq⟩ := not_or.1 hs
    have hlarge := (h.resolve_left hp).resolve_left hq
    rw [exec_derive hrd (Nat.not_lt.1 hp) (Nat.not_lt.1 hq), keyDerive_eq_range hlarge]
    rfl

/-- Settles O34: the error is raised without a write of CANDIDATES and without a draw. -/
theorem deriveReportsOperandRange : Obligations.DeriveReportsOperandRange := by
  intro s rd ra rb hrd h
  exact ⟨_, exec_derive_range hrd (by rwa [Config.maxBits]), errFrame_raise _ _ _ _, rfl, rfl⟩

/-! ## The triple of KEYGEN (R180 to R183) -/

theorem bitlen_eq_of_bounds {v k : Nat} (h : 2 ^ k ≤ v) (h' : v < 2 ^ (k + 1)) : bitlen v = k + 1 :=
  le_antisymm (bitlen_le_iff.2 h') (Nat.not_le.1 fun hle => (bitlen_le_iff.1 hle).not_ge h)

/-- Two factors of at least three quarters of 2^h have a product of exactly 2h bits (R183). -/
theorem bitlen_mul_of_inCandidateRange {h p q : Nat} (hh : 2 ≤ h) (hp : InCandidateRange h p)
    (hq : InCandidateRange h q) : bitlen (p * q) = h + h := by
  obtain ⟨k, rfl⟩ := Nat.exists_eq_add_of_le' hh
  have hlo : 2 ^ (k + 2 + k + 1) ≤ p * q := by
    calc 2 ^ (k + 2 + k + 1) = 8 * (2 ^ k * 2 ^ k) := by ring
      _ ≤ 9 * (2 ^ k * 2 ^ k) := Nat.mul_le_mul_right _ (by norm_num)
      _ = 3 * 2 ^ k * (3 * 2 ^ k) := by ring
      _ ≤ p * q := Nat.mul_le_mul hp.1 hq.1
  have hhi : p * q < 2 ^ (k + 2 + k + 1 + 1) :=
    (Nat.mul_lt_mul'' hp.2.1 hq.2.1).trans_eq (pow_add 2 (k + 2) (k + 2)).symm
  exact bitlen_eq_of_bounds hlo hhi

theorem InCandidateRange.three_le {bits c : Nat} (h : InCandidateRange bits c) : 3 ≤ c :=
  (Nat.le_mul_of_pos_right 3 (by positivity)).trans h.1

/-- KEYGEN from the search for q on, with the source at `e`: the found q completes the command (R180, R181, R183). -/
theorem keygenSecond_commits (s : State) {rd : Slot} {n p cp q cq : Nat} {left : Option Search} {e e' : Entropy}
    (hrd : rd.val ≤ 5) (hn : n ∈ Config.keySizes) (hg : Nat.gcd 65537 ((p - 1) * (q - 1)) = 1)
    (hp : InCandidateRange (n / 2) p) (hl : ∀ l, left = some l → InCandidateRange (n / 2) l.candidate)
    (h : searchTurn (n / 2) s.roundsOperand s.capOperand s.burst left e = (.found q cq, e')) :
    TripleCommitted s ((s.withEntropy e).keygenSecond rd n p cp left) rd n p q (cp + cq) e' := by
  obtain ⟨h2, heq⟩ := half_of_mem_keySizes hn
  have hq : InCandidateRange (n / 2) q := searchTurn_found h2 hl h
  have hsecond := keygenSecond_found (s := s.withEntropy e) (rd := rd) (p := p) (cp := cp) (heq.symm ▸ h)
  obtain ⟨hframe, hmod, hpub, hlt, hcong, hres, hcand, hent⟩ := finishDerivation_commits s e' _ hrd
    (Nat.le_of_succ_le hp.three_le) (Nat.le_of_succ_le hq.three_le) (mul_lt_of_inCandidateRange hn hp hq) hg hsecond
  have hphi : 2 ≤ (p - 1) * (q - 1) := (show 2 ≤ 2 * 2 by norm_num).trans
    (Nat.mul_le_mul (Nat.le_sub_one_of_lt hp.three_le) (Nat.le_sub_one_of_lt hq.three_le))
  have hsize : bitlen (p * q) = n := (bitlen_mul_of_inCandidateRange h2 hp hq).trans (by omega)
  exact ⟨hframe, hmod, hsize, hpub, hlt, Eq.trans hcong (Nat.mod_eq_of_lt hphi), hcand ▸ saturate_toNat (cp + cq),
    hres, hent⟩

/-- Settles O35: both turns end with the search for q, on the source that the search for p left. -/
theorem keygenCommitsTheTriple : Obligations.KeygenCommitsTheTriple := by
  intro s rd totalBits p cp q cq e₁ e₂ hrd hn hg
  refine ⟨fun hleft hfirst hsecond => ?_, fun l hl hlp hp hc hsecond => ?_⟩
  · have hp : InCandidateRange (totalBits.toNat / 2) p :=
      searchTurn_found (half_of_mem_keySizes hn).1 (fun l hl => (hleft l hl).2) hfirst
    refine ⟨_, exec_keygen hrd hn, ?_⟩
    rw [keygenTurn_first fun l hl => (hleft l hl).1, keygenFirst_found hfirst]
    exact keygenSecond_commits s hrd hn hg hp (fun _ hl => nomatch hl) hsecond
  · refine ⟨_, exec_keygen hrd hn, ?_⟩
    rw [keygenTurn_second hl hlp]
    exact keygenSecond_commits s hrd hn hg hp (fun _ hl' => Option.some.inj hl' ▸ hc) hsecond

/-! ## The round trip (R185) -/

/-- What CIPHER completes with for a message in range (R225). -/
theorem exec_cipher_writes {s : State} {rd ra rb rc : Slot} (h : s.src ra < s.src rb) :
    ∃ t, exec (.cipher rd ra rb rc) s = .next t ∧ OkFrame [rd] s t ∧
      t.mem.slot rd = s.src ra ^ s.src rc % s.src rb := by
  have hpos : 0 < s.src rb := Nat.zero_lt_of_lt h
  refine ⟨_, exec_cipher h, okFrame_of_eq rfl rfl, ?_⟩
  rw [slot_of_completeOk rfl ((modExpFn_lt hpos).trans (s.src_lt rb)), modExpFn_eq hpos]

/-- Fermat's theorem for every base: a power whose exponent is 1 modulo p - 1 is the base, modulo p. -/
theorem pow_modEq_self_of_prime {p k : Nat} (m : Nat) (hp : p.Prime) (hk : 0 < k) (h : p - 1 ∣ k - 1) :
    m ^ k ≡ m [MOD p] := by
  have hpow : (m : ℤ) ^ k ≡ (m : ℤ) ^ 1 [ZMOD p] := Int.ModEq.pow_eq_pow hp h hk Nat.one_pos m
  rw [pow_one] at hpow
  exact_mod_cast hpow

/-- The powers of R185: for distinct primes a power whose exponent is 1 modulo φ is the base, modulo p q, by Fermat's
theorem for each prime and the Chinese remainder theorem. -/
theorem pow_modEq_self_of_primes {p q k : Nat} (m : Nat) (hp : p.Prime) (hq : q.Prime) (hne : p ≠ q)
    (h : k ≡ 1 [MOD (p - 1) * (q - 1)]) : m ^ k ≡ m [MOD p * q] := by
  have hk : 0 < k := Nat.pos_of_ne_zero fun h0 => by
    subst h0
    have hphi : (p - 1) * (q - 1) = 1 := Nat.dvd_one.1 ((Nat.modEq_iff_dvd' (Nat.zero_le 1)).1 h)
    obtain ⟨rfl, rfl⟩ := eq_two_of_phi_eq_one hphi
    exact hne rfl
  have hdvd : (p - 1) * (q - 1) ∣ k - 1 := (Nat.modEq_iff_dvd' hk).1 h.symm
  have hmodp := pow_modEq_self_of_prime m hp hk ((Nat.dvd_mul_right _ _).trans hdvd)
  have hmodq := pow_modEq_self_of_prime m hq hk ((Nat.dvd_mul_left _ _).trans hdvd)
  exact (Nat.modEq_and_modEq_iff_modEq_mul ((Nat.coprime_primes hp hq).2 hne)).1 ⟨hmodp, hmodq⟩

/-- Settles O59: the two powers have the exponent e d, which is 1 modulo φ. -/
theorem decryptUndoesEncrypt : Obligations.DecryptUndoesEncrypt := by
  intro p q n e d hp hq hne hkey s₁ s₂ r₁ m₁ n₁ x₁ r₂ m₂ n₂ x₂ hm hn₁ hx₁ hn₂ hx₂
  obtain ⟨rfl, -, -, hcong, -⟩ := derivedKeySatisfiesItsCongruence p q n e d hp.two_le hq.two_le hkey
  obtain ⟨t₁, ht₁, -, hslot₁⟩ := exec_cipher_writes (rd := r₁) (rc := x₁) (hn₁.symm ▸ hm)
  rw [hn₁, hx₁] at hslot₁
  refine ⟨t₁, ht₁, fun hc => ?_⟩
  have hlt : s₂.src m₂ < s₂.src n₂ := by
    rw [hc, hslot₁, hn₂]
    exact Nat.mod_lt _ (Nat.zero_lt_of_lt hm)
  obtain ⟨t₂, ht₂, hframe, hslot₂⟩ := exec_cipher_writes (rd := r₂) (rc := x₂) hlt
  refine ⟨t₂, ht₂, hframe.doneOk, ?_⟩
  calc t₂.mem.slot r₂ = (s₁.src m₁ ^ e % (p * q)) ^ d % (p * q) := by rw [hslot₂, hc, hslot₁, hn₂, hx₂]
    _ = s₁.src m₁ ^ (e * d) % (p * q) := by rw [← Nat.pow_mod, ← pow_mul]
    _ = s₁.src m₁ % (p * q) := pow_modEq_self_of_primes _ hp hq hne hcong
    _ = s₁.src m₁ := Nat.mod_eq_of_lt hm

end Sys2Proof.Machine
end

section
/-! PROOFS. The message codec and the control commands: what R200 and R201 say of the bytes of a message, R202 of BITLEN
and R206 of NOP. -/

namespace Sys2Proof.Machine

open State

/-- Settles O21: the completion writes no slot, and neither RESULT nor CANDIDATES. -/
theorem nopOnlyCompletes : Obligations.NopOnlyCompletes := by
  intro s
  refine ⟨_, exec_nop s, okFrame_of_eq rfl rfl, ?_, ?_, ?_⟩
  · rw [completeOk_result, Option.getD_none, withEntropy_result]
  · rw [completeOk_candidates, Option.getD_none, withEntropy_candidates]
  · rw [completeOk_entropy, withEntropy_entropy]

/-- Settles O38: RESULT holds `bitlen` of the slot, which the value's bounds give. -/
theorem bitlenWritesTheLength : Obligations.BitlenWritesTheLength := by
  intro s ra
  refine ⟨_, exec_bitlen s ra, okFrame_of_eq rfl rfl, ?_⟩
  rw [completeOk_result, Option.getD_some, bitlenResult_toNat]
  refine ⟨bitlen_src_le s ra, lt_two_pow_bitlen _, two_pow_bitlen_le, fun h => ?_, ?_, ?_⟩
  · rw [h]; rfl
  · rw [completeOk_candidates, Option.getD_none, withEntropy_candidates]
  · rw [completeOk_entropy, withEntropy_entropy]

/-! ## The bytes of an integer (R201) -/

@[simp] theorem length_unpackBytes (k v : Nat) : (unpackBytes k v).length = k := by
  induction k generalizing v with
  | zero => rfl
  | succ k ih => rw [unpackBytes, List.length_cons, ih]

theorem getElem_unpackBytes {k v i : Nat} (h : i < (unpackBytes k v).length) :
    (unpackBytes k v)[i] = BitVec.ofNat 8 (v / 256 ^ i) := by
  induction k generalizing v i with
  | zero => exact absurd h (Nat.not_lt_zero i)
  | succ k ih =>
    cases i with
    | zero => simp [unpackBytes]
    | succ i => simp only [unpackBytes, List.getElem_cons_succ, ih, Nat.div_div_eq_div_mul, pow_succ']

theorem packBytes_unpackBytes (k v : Nat) : packBytes (unpackBytes k v) = v % 256 ^ k := by
  induction k generalizing v with
  | zero => rw [pow_zero, Nat.mod_one]; rfl
  | succ k ih =>
    rw [unpackBytes, packBytes, ih, BitVec.toNat_ofNat, pow_succ' 256 k, Nat.mod_mul (a := 256) (b := 256 ^ k)]

/-! ## The integer of a message (R200) -/

theorem packBytes_lt (msg : List Byte) : packBytes msg < 256 ^ msg.length := by
  induction msg with
  | nil => exact Nat.one_pos
  | cons t ts ih =>
    have ht := t.isLt
    rw [packBytes, List.length_cons, pow_succ']
    omega

theorem packBytes_concat (ts : List Byte) (t : Byte) :
    packBytes (ts ++ [t]) = packBytes ts + 256 ^ ts.length * t.toNat := by
  induction ts with
  | nil => simp [packBytes]
  | cons u us ih => rw [List.cons_append, packBytes, packBytes, ih, List.length_cons, pow_succ']; ring

/-- A last byte that is not 0 is worth at least 256 to the power of its place. -/
theorem packBytes_concat_lt_iff {ts : List Byte} {t : Byte} : packBytes (ts ++ [t]) < 256 ^ ts.length ↔ t = 0 := by
  have hts := packBytes_lt ts
  rw [packBytes_concat]
  constructor
  · intro h
    by_contra h0
    have hpos : 0 < t.toNat := Nat.pos_of_ne_zero fun hz => h0 (BitVec.eq_of_toNat_eq hz)
    have hbig := Nat.le_mul_of_pos_right (256 ^ ts.length) hpos
    omega
  · rintro rfl
    exact hts

theorem unpackBytes_packBytes (msg : List Byte) : unpackBytes msg.length (packBytes msg) = msg := by
  induction msg with
  | nil => rfl
  | cons t ts ih =>
    have ht := t.isLt
    have hlow : BitVec.ofNat 8 (t.toNat + 256 * packBytes ts) = t := by
      apply BitVec.eq_of_toNat_eq
      rw [BitVec.toNat_ofNat, Nat.add_mul_mod_self_left, Nat.mod_eq_of_lt ht]
    have hhigh : (t.toNat + 256 * packBytes ts) / 256 = packBytes ts := by omega
    rw [packBytes, List.length_cons, unpackBytes, hlow, hhigh, ih]

/-! ## The length of the decoded message (R201) -/

theorem messageLength_le_iff {v k : Nat} : messageLength v ≤ k ↔ v < 256 ^ k := by
  rw [← two_pow_eight_mul, ← bitlen_le_iff, messageLength]
  omega

/-- A message keeps its length exactly when its last byte counts. -/
theorem messageLength_packBytes_iff (msg : List Byte) :
    messageLength (packBytes msg) = msg.length ↔ msg = [] ∨ msg.getLast? ≠ some 0 := by
  rcases List.eq_nil_or_concat' msg with rfl | ⟨ts, t, rfl⟩
  · exact iff_of_true rfl (.inl rfl)
  · have hle : messageLength (packBytes (ts ++ [t])) ≤ (ts ++ [t]).length := messageLength_le_iff.2 (packBytes_lt _)
    have hlost : messageLength (packBytes (ts ++ [t])) ≤ ts.length ↔ t = 0 :=
      messageLength_le_iff.trans packBytes_concat_lt_iff
    have hlast : ts ++ [t] = [] ∨ (ts ++ [t]).getLast? ≠ some 0 ↔ ¬ t = 0 := by simp
    rw [hlast, ← hlost]
    rw [List.length_append, List.length_singleton] at hle ⊢
    omega

/-! ## The round trips (R201) -/

/-- Settles O60: packing and unpacking a fixed number of bytes are inverse to each other, and the decoded length is the
message's own exactly when its last byte counts. -/
theorem codecRoundTrips : Obligations.CodecRoundTrips := by
  refine ⟨fun v => ⟨length_unpackBytes _ v, fun i h => ?_⟩, fun v hv => ?_, fun msg v hv => ?_⟩
  · rw [two_pow_eight_mul]
    exact getElem_unpackBytes h
  · have hlen : messageLength v ≤ Config.slotBytes := by
      rw [messageLength_le_iff, slotBytes_pow, Config.maxBits]
      exact hv
    rw [encodeMessage, decodeMessage, length_unpackBytes, if_pos hlen, packBytes_unpackBytes,
      Nat.mod_eq_of_lt (messageLength_le_iff.1 le_rfl)]
  · obtain ⟨-, hv⟩ := Option.ite_none_right_eq_some.1 hv
    obtain rfl := Option.some.inj hv
    rw [← messageLength_packBytes_iff, decodeMessage]
    refine ⟨fun h => ?_, fun h => ?_⟩
    · rw [← length_unpackBytes (messageLength (packBytes msg)) (packBytes msg), h]
    · rw [h, unpackBytes_packBytes]

end Sys2Proof.Machine
end

section
/-! PROOFS. The modular power commands: what R220 to R222 say of MODEXP, R225 and R226 of CIPHER, and the zero modulus
that MODEXP, CIPHER and MODINV share (R156, R221). -/

namespace Sys2Proof.Machine

/-! ## The two ends the family has (R240, R241) -/

/-- A command that ends by committing a power modulo a slot's value: the power is below the modulus, and so fits a
slot. -/
theorem writesPower_of_exec_eq {i : Instr} {s : State} {rd rm : Slot} {b x : Nat} (hm : 0 < s.src rm)
    (h : exec i s = .next ((s.withEntropy s.entropy).completeOk [(rd, modExpFn b x (s.src rm))] none none)) :
    ∃ t, exec i s = .next t ∧ OkFrame [rd] s t ∧ t.mem.slot rd = b ^ x % s.src rm ∧
      t.result = s.result ∧ t.candidates = s.candidates ∧ t.entropy = s.entropy := by
  have hfit : modExpFn b x (s.src rm) < 2 ^ Config.maxBits := (modExpFn_lt hm).trans (s.src_lt rm)
  exact ⟨_, h, okFrame_of_eq rfl rfl, (slot_of_completeOk rfl hfit).trans (modExpFn_eq hm), rfl, rfl, rfl⟩

/-- What an error without a count of candidates and without a draw leaves behind. -/
theorem reports_of_exec_eq_raise_none {i : Instr} {s : State} {k : ErrKind}
    (h : exec i s = .next ((s.withEntropy s.entropy).raise k none)) :
    ∃ t, exec i s = .next t ∧ ErrFrame k s t ∧ t.candidates = s.candidates ∧ t.entropy = s.entropy :=
  ⟨_, h, errFrame_raise s s.entropy k none, rfl, rfl⟩

/-! ## The obligations -/

/-- Settles O22: the loop reduces the base first, so it needs no bound on it. -/
theorem modexpWritesThePower : Obligations.ModexpWritesThePower :=
  fun _ _ _ _ _ hm => writesPower_of_exec_eq (Nat.pos_of_ne_zero hm) (exec_modexp hm)

/-- Settles O23: each of the three checks its modulus before anything else. -/
theorem zeroModulusIsReported : Obligations.ZeroModulusIsReported := fun _ _ _ _ _ =>
  ⟨fun hm => reports_of_exec_eq_raise_none (exec_modexp_zero hm),
    fun hn => reports_of_exec_eq_raise_none (exec_cipher_zero hn),
    fun hm => reports_of_exec_eq_raise_none (exec_modinv_zero hm)⟩

/-- Settles O24: an input below n leaves n nonzero, so neither check of CIPHER applies. -/
theorem cipherTransformsItsInput : Obligations.CipherTransformsItsInput :=
  fun _ _ _ _ _ hlt => writesPower_of_exec_eq (Nat.zero_lt_of_lt hlt) (exec_cipher hlt)

/-- Settles O25: the nonzero modulus passes the first check, and the input fails the second. -/
theorem cipherRejectsLargeInput : Obligations.CipherRejectsLargeInput :=
  fun _ _ _ _ _ hn hle => reports_of_exec_eq_raise_none (exec_cipher_large hn hle)

end Sys2Proof.Machine
end

section
/-! PROOFS. Completions and errors: what R241 and R242 say a command that raises an error leaves behind, and which turns
complete (R240, R294). -/

namespace Sys2Proof.Machine

open State

/-! ## A turn that turns ERR on (R241) -/

/-- Of the three ends of a turn only an error turns ERR on. -/
theorem raisesAs_of_err_on {i : Instr} {s t : State} (h : exec i s = .next t) (ht : t.err = true) (hs : s.err = false) :
    ∃ e k c, RaisesAs i s t e k c := by
  rcases ends_of_exec h with ⟨e, ws, r, c, hc⟩ | hk | ⟨e, q, hq⟩
  · rw [hc.eq, completeOk_err] at ht
    cases ht
  · exact hk
  · rw [hq.eq, suspend_err, withEntropy_err, hs] at ht
    cases ht

/-- Settles O40: the turn ended by raising an error, and CANDIDATES is written by the searches only. -/
theorem errorsCommitNothing : Obligations.ErrorsCommitNothing := by
  intro i s t h ht hs
  obtain ⟨e, k, c, hk⟩ := raisesAs_of_err_on h ht hs
  obtain ⟨⟨hidle, hdone, -, hcode⟩, hbytes, hresult, hhost⟩ : ErrFrame k s t := hk.eq ▸ errFrame_raise s e k c
  obtain ⟨hlo, hhi⟩ := k.code_bounds
  refine ⟨hbytes, hresult, hhost, hidle, hdone, hcode ▸ hlo, hcode ▸ hhi, fun hn => ?_⟩
  obtain rfl : c = none := by simpa [hn] using hk.cand
  rw [hk.eq, raise_candidates, Option.getD_none, withEntropy_candidates]

/-! ## The turns that complete (R240, R294) -/

/-- Under a cap, or without a search, the command completes in one turn: only an uncapped search is left running
(R134). -/
theorem exec_completes {i : Instr} {s : State} (h : s.capOperand ≠ 0 ∨ searches i = false) :
    ∃ t, exec i s = .next t ∧ t.phase = .idle ∧ t.done = true := by
  obtain ⟨t, ht, hends⟩ := exec_ends i s
  refine ⟨t, ht, ?_⟩
  rcases hends with ⟨e, ws, r, c, hc⟩ | ⟨e, k, c, hk⟩ | ⟨e, q, hq⟩
  · rw [hc.eq]
    exact ⟨rfl, rfl⟩
  · rw [hk.eq]
    exact ⟨rfl, rfl⟩
  · rcases h with hcap | hn
    · exact absurd hq.cap hcap
    · exact absurd (hn ▸ hq.searches) Bool.false_ne_true

/-- Settles O42: an illegal word raises its error, and a command completes under the cap of its snapshot. -/
theorem cappedCommandsComplete : Obligations.CappedCommandsComplete := by
  intro s w snap q hturn hrst hphase h
  rw [step_runWord hturn hrst hphase]
  cases hd : decode w with
  | illegal y => exact ⟨_, runWord_illegal hd, rfl, rfl⟩
  | command i =>
    have hview : s.engineView.snapshot = snap := snapshot_of_busy ((engineView_phase s).trans hphase)
    rw [runWord_command hd]
    refine exec_completes (h.imp (fun hcap h0 => hcap ?_) fun hn => hn i hd)
    rw [capOperand, hview] at h0
    exact BitVec.eq_of_toNat_eq h0

end Sys2Proof.Machine
end

section
/-! PROOFS. The RST input: what R280 says of its levels and of the host's accesses while it is asserted. -/

namespace Sys2Proof.Machine

section
variable {s : State} {rest : List Event}

/-! ## One step on a level of RST -/

/-- At the assertion of RST and at its release `driveRst` resets the block, whatever ran (R280). -/
theorem driveRst_resets {level : Bool} (h : level = true ∨ s.rst = true) :
    s.driveRst level = { s.resetBlock with rst := level } := by
  rw [State.driveRst, if_pos (Bool.or_eq_true_iff.2 h)]

theorem step_rst_resets {level : Bool} (hlevel : level = true ∨ s.rst = true) (h : s.agenda = .rst level :: rest) :
    step s = .next { s.resetBlock with rst := level, agenda := rest } :=
  (step_event h).trans (congrArg Host.Outcome.next (driveRst_resets (s := { s with agenda := rest }) hlevel))

/-! ## One step on an access while RST is asserted -/

variable {off size : Nat}

/-- A read that gets no bus error returns 0 while RST is asserted (R280). -/
theorem step_read_held (hrst : s.rst = true) (hoff : off < 0x2000) (hbus : isBusError off size = false)
    (h : s.agenda = .read (Config.base + off) size :: rest) :
    step s = .next ({ s with agenda := rest }.respond (.readData 0)) := by
  rw [step_read h, hostRead_base hoff, State.readOffset, hbus, if_neg Bool.false_ne_true, if_pos hrst]

/-- A write that gets no bus error only gets its response while RST is asserted (R280). -/
theorem step_write_held {v : Word} (hrst : s.rst = true) (hoff : off < 0x2000) (hbus : isBusError off size = false)
    (h : s.agenda = .write (Config.base + off) size v :: rest) :
    step s = .next ({ s with agenda := rest }.respond .writeDone) := by
  rw [step_write h, hostWrite_base hoff, State.writeOffset, hbus, if_neg Bool.false_ne_true, if_pos hrst]

end

/-! ## The obligation -/

/-- Settles O53: assertion and release reset the block, and in between an access only gets its response. -/
theorem resetLineHoldsTheBlock : Obligations.ResetLineHoldsTheBlock := by
  refine ⟨fun s rest h => ?asserted, fun s rest hrst h => ?released,
    fun s off size v rest hrst hoff hbus => ⟨fun h => ?write, fun h => ?read⟩⟩
  case asserted => exact ⟨_, step_rst_resets (.inl rfl) h, rfl⟩
  case released => exact ⟨_, step_rst_resets (.inr hrst) h, rfl⟩
  case write => exact ⟨_, step_write_held hrst hoff hbus h, rfl, rfl⟩
  case read => exact ⟨_, step_read_held hrst hoff hbus h, rfl, rfl, rfl⟩

end Sys2Proof.Machine
end
